-- ==== Sys2Proof/Word.lean ====
section
/-! DEFINITION. The word types of fp32_add_subtract_unit (00_scope.md section 4, R5). -/

namespace Sys2Proof

/-- A 32-bit word: a native float word, a significand, the accumulator, an exponent field
(R5: FLOAT_W, MAN_W, EXP_W; the width of the exponent container is the spec's D6, log 10). -/
abbrev Word := BitVec 32

/-- A 1-bit field or wire (R5: SIGN_W; R15, R17). -/
abbrev Bit := BitVec 1

/-- The transaction TX written as one 66-bit number (R33): op [65:64], a [63:32], b [31:0]. -/
abbrev TxWord := BitVec 66

/-- A condition as a 1-bit wire. -/
abbrev Bit.of (p : Prop) [Decidable p] : Bit := if p then 1 else 0

end Sys2Proof
end

