-- ==== Sys2Proof/Syntax.lean ====
section
/-! DEFINITION. The values that travel in the unit and the instructions: one constructor per row of
spec/opcode_table.json. -/

namespace Sys2Proof

/-- The FloatValue bundle FV (R14, R31): sign, biased exponent, mantissa. -/
structure FloatValue where
  sign : Bit
  exponent : Word
  mantissa : Word
  deriving DecidableEq, Repr

/-- The exact-zero tuple (0, 0, 0) of R14, invariant 4. -/
def FloatValue.zero : FloatValue := { sign := 0, exponent := 0, mantissa := 0 }

/-- The values of the three input ports (R15, R33). -/
structure Tx where
  op : BitVec 2
  a : Word
  b : Word
  deriving DecidableEq, Repr

/-- The rows of spec/opcode_table.json. The first four are selected by the port `op` (R35); the rest are
the STAGE rows, with the operands their rows' signatures give them, and the pseudo-operation FCOPY.
A stage is "not selected by any bits" (R35): its constructor stands for one evaluation of that block's
function on operands given to it (D3, log 7). -/
inductive Instr where
  /-- FADD, op 00 (R77). -/
  | fadd (a b : Word)
  /-- FSUB, op 01 (R83). -/
  | fsub (a b : Word)
  /-- FEQ, op 10 (R89). -/
  | feq (a b : Word)
  /-- op 11 (R36). -/
  | reserved (a b : Word)
  /-- UNPACK (R40). -/
  | unpack (w : Word)
  /-- PACK (R41). -/
  | pack (f : FloatValue)
  /-- WITH_IMPLICIT_BIT (R45). -/
  | withImplicitBit (f : FloatValue)
  /-- BIT_AT (R46). -/
  | bitAt (f : FloatValue) (i : BitVec 5)
  /-- FIND_MSB (R47). -/
  | findMsb (m : Word) (start : BitVec 5)
  /-- ALIGN (R50). -/
  | align (xa ea xb eb : Word) (comp : Bit)
  /-- SUB_CARRY (R52). -/
  | subCarry (sig : BitVec 24) (d : BitVec 8)
  /-- RENORM (R53). -/
  | renorm (mag ec : Word)
  /-- STRIP (R55). -/
  | strip (nmag : Word)
  /-- TC_CONVERT (R60). -/
  | tcConvert (s : Bit) (y : Word)
  /-- SUM (R61). -/
  | sum (ta tb : Word)
  /-- SIGN_RECOVER (R62). -/
  | signRecover (acc : Word)
  /-- CANCEL_ADD (R70). -/
  | cancelAdd (sa sb : Bit) (ya yb : Word)
  /-- PIPE (R71): the second operand carries its effective sign. -/
  | pipe (x y : FloatValue) (comp : Bit)
  /-- FINALIZE (R72). -/
  | finalize (cancel rs : Bit) (ne frac : Word)
  /-- FADD_T (R73). -/
  | faddT (x y : FloatValue)
  /-- CANCEL_SUB (R80). -/
  | cancelSub (x y : FloatValue)
  /-- SIGN_INVERT (R81). -/
  | signInvert (sb : Bit)
  /-- FSUB_T (R82). -/
  | fsubT (x y : FloatValue)
  /-- EQUALS (R88). -/
  | equals (f : FloatValue) (n : Word)
  /-- FCOPY, the pseudo-operation FEQ a, a (R38). -/
  | fcopy (a : Word)
  deriving DecidableEq, Repr

end Sys2Proof
end

