-- ==== Sys2Proof/WellFormed.lean ====
section
/-! DEFINITION. Which instructions are well formed: the operands the spec gives each row. -/

namespace Sys2Proof

/-- AtRest of 00_scope.md section 5 on a tuple: exponent at most 255 and mantissa at most 0x7FFFFF (R14,
invariant 1). The sign is one bit by its type. -/
def FloatValue.restForm (f : FloatValue) : Bool :=
  f.exponent.ule 255 && f.mantissa.ule 0x7FFFFF

/-- The operands a row's rule admits. Port transactions take any words (R4, R36). The tuple-level functions
take at-rest operands (R71, D22), SUB_CARRY a distance of at least 1 (R52), ALIGN significands of format SIG
with exponents 0 to 255 (R50, R32). -/
def Instr.wellFormed : Instr → Bool
  | .fadd _ _ => true
  | .fsub _ _ => true
  | .feq _ _ => true
  | .reserved _ _ => true
  | .unpack _ => true
  | .pack _ => true
  | .withImplicitBit _ => true
  | .bitAt _ _ => true
  | .findMsb _ _ => true
  | .align xa ea xb eb _ =>
      xa.ule 0xFFFFFF && (0x800000 : Word).ule xa && xb.ule 0xFFFFFF && (0x800000 : Word).ule xb
        && ea.ule 255 && eb.ule 255
  | .subCarry _ d => d != 0
  | .renorm _ _ => true
  | .strip _ => true
  | .tcConvert _ _ => true
  | .sum _ _ => true
  | .signRecover _ => true
  | .cancelAdd _ _ _ _ => true
  | .pipe x y _ => x.restForm && y.restForm
  | .finalize _ _ _ _ => true
  | .faddT x y => x.restForm && y.restForm
  | .cancelSub _ _ => true
  | .signInvert _ => true
  | .fsubT x y => x.restForm && y.restForm
  | .equals _ _ => true
  | .fcopy _ => true

end Sys2Proof
end

