-- ==== Sys2Proof/Decode.lean ====
section
/-! DEFINITION. Decoding a transaction word (R33, R35), and the encoder.
Only the four values of `op` select an instruction; the STAGE rows have no code (R35) and FCOPY is another
name of FEQ's words (R38), so neither is ever decoded (logs 7 and 8). -/

namespace Sys2Proof

/-- The three fields of a 66-bit transaction word (R33). -/
def Tx.ofWord (w : TxWord) : Tx :=
  { op := w.extractLsb' 64 2, a := w.extractLsb' 32 32, b := w.extractLsb' 0 32 }

/-- The operation map of R35. It is total: "every 32-bit value of a and of b is a legal operand" (R36). -/
def Tx.decode (t : Tx) : Instr :=
  match t.op with
  | 0 => .fadd t.a t.b
  | 1 => .fsub t.a t.b
  | 2 => .feq t.a t.b
  | 3 => .reserved t.a t.b

/-- The instruction a transaction word selects (R33, R35). -/
def decode (w : TxWord) : Instr := (Tx.ofWord w).decode

/-- Why a number is no transaction word. -/
inductive DecodeReject where
  /-- A bit above bit 65 is set: format TX has 66 bits (R33). Safe: the host never presents such a word. -/
  | widerThanTx
  deriving DecidableEq, Repr

/-- Decoding any number, numbered as spec/opcode_table.json numbers bits: rejected by name when it has a bit
that format TX does not have (log 18). -/
def decodeNumber (w : Nat) : Except DecodeReject Instr :=
  if w < 2 ^ 66 then .ok (decode (BitVec.ofNat 66 w)) else .error .widerThanTx

/-- What the decoder reads from an instruction of `nbits` table bits `w`; the bits above `nbits` are 0. -/
def decodeTableWord (nbits w : Nat) : Option Instr :=
  match decodeNumber (w % 2 ^ nbits) with
  | .ok i => some i
  | .error _ => none

/-- The 66-bit word of a triple (R33). -/
def Tx.word (t : Tx) : TxWord := t.op ++ t.a ++ t.b

/-- The triple on the ports that evaluates an instruction (R35, R38), for the rows that have one. -/
def Instr.tx? : Instr → Option Tx
  | .fadd a b => some { op := 0, a := a, b := b }
  | .fsub a b => some { op := 1, a := a, b := b }
  | .feq a b => some { op := 2, a := a, b := b }
  | .reserved a b => some { op := 3, a := a, b := b }
  | .fcopy a => some { op := 2, a := a, b := a }
  | .unpack _ => none
  | .pack _ => none
  | .withImplicitBit _ => none
  | .bitAt _ _ => none
  | .findMsb _ _ => none
  | .align _ _ _ _ _ => none
  | .subCarry _ _ => none
  | .renorm _ _ => none
  | .strip _ => none
  | .tcConvert _ _ => none
  | .sum _ _ => none
  | .signRecover _ => none
  | .cancelAdd _ _ _ _ => none
  | .pipe _ _ _ => none
  | .finalize _ _ _ _ => none
  | .faddT _ _ => none
  | .cancelSub _ _ => none
  | .signInvert _ => none
  | .fsubT _ _ => none
  | .equals _ _ => none

/-- The encoder: the word of every row that has one; none for the STAGE rows, which no bits select (R35). -/
def encode (i : Instr) : Option TxWord := i.tx?.map Tx.word

/-- The core instruction whose words an instruction shares: FCOPY a is FEQ a, a (R38). -/
def Instr.expand : Instr → Instr
  | .fadd a b => .fadd a b
  | .fsub a b => .fsub a b
  | .feq a b => .feq a b
  | .reserved a b => .reserved a b
  | .unpack a => .unpack a
  | .pack a => .pack a
  | .withImplicitBit a => .withImplicitBit a
  | .bitAt a b => .bitAt a b
  | .findMsb a b => .findMsb a b
  | .align a b c d e => .align a b c d e
  | .subCarry a b => .subCarry a b
  | .renorm a b => .renorm a b
  | .strip a => .strip a
  | .tcConvert a b => .tcConvert a b
  | .sum a b => .sum a b
  | .signRecover a => .signRecover a
  | .cancelAdd a b c d => .cancelAdd a b c d
  | .pipe a b c => .pipe a b c
  | .finalize a b c d => .finalize a b c d
  | .faddT a b => .faddT a b
  | .cancelSub a b => .cancelSub a b
  | .signInvert a => .signInvert a
  | .fsubT a b => .fsubT a b
  | .equals a b => .equals a b
  | .fcopy a => .feq a a

end Sys2Proof
end

