-- ==== Sys2Proof/Machine/State.lean ====
section
/-! DEFINITION. What the model holds. The unit itself holds nothing (R10 to R13, R16): State is the values on its
ports and wires in the evaluation last made, and the host's list of transactions (INVENTORY.md, log 1). -/

namespace Sys2Proof.Machine

/-- The values on the output ports (R15). -/
structure Outputs where
  rSign : Bit
  rExp : Word
  rMan : Word
  rBits : Word
  eq : Bit
  deriving DecidableEq, Repr

/-- The wires of one pass through the pipeline (R17), in the order the steps drive them (R71). `delta` is
absent when the search found no bit (log 14). -/
structure PipeWires where
  sbEff : Bit
  xa : Word
  xb : Word
  d : Word
  c : Bit
  ya : Word
  yb : Word
  ec : Word
  ta : Word
  tb : Word
  acc : Word
  rs : Bit
  mag : Word
  found : Bit
  idx : BitVec 5
  delta : Option Int
  nmag : Word
  ne : Word
  frac : Word
  deriving DecidableEq, Repr

/-- The internal signals of an FADD or FSUB: the condition `cancel` (R16) and the pipeline's wires (R17). -/
structure Internal where
  cancel : Bit
  pipe : PipeWires
  deriving DecidableEq, Repr

/-- What one stage-level evaluation answers: the result of its rule, in the shape its row's signature gives
(log 7). -/
inductive StageOut where
  /-- No stage-level evaluation has been made. -/
  | nothing
  /-- UNPACK, WITH_IMPLICIT_BIT, FINALIZE, FADD_T, FSUB_T (R40, R45, R72, R73, R82). -/
  | value (f : FloatValue)
  /-- PACK, STRIP, TC_CONVERT, SUM (R41, R55, R60, R61). -/
  | word (w : Word)
  /-- BIT_AT, SUB_CARRY, CANCEL_ADD, CANCEL_SUB, SIGN_INVERT, EQUALS (R46, R52, R70, R80, R81, R88). -/
  | bit (b : Bit)
  /-- FIND_MSB (R47). -/
  | msb (found : Bit) (idx : BitVec 5)
  /-- ALIGN (R50), with the distance and the carry it names for reference. -/
  | aligned (ya yb ec d : Word) (c : Bit)
  /-- RENORM (R53). -/
  | renormed (nmag ne : Word) (found : Bit)
  /-- SIGN_RECOVER (R62). -/
  | signMag (rs : Bit) (mag : Word)
  /-- PIPE (R71). -/
  | piped (rs : Bit) (ne frac ya yb : Word)
  deriving DecidableEq, Repr

/-- The state of the model. -/
structure State where
  /-- THE MODEL'S OWN: the transactions the host will present next, the first one first (R105, log 3). -/
  pending : List Tx
  /-- The input ports op, a, b (R15). -/
  inputs : Tx
  /-- The output ports (R15). -/
  outputs : Outputs
  /-- The operands as FloatValues (R15, R17). -/
  wireA : FloatValue
  wireB : FloatValue
  /-- The internal signals; they do not exist outside FADD and FSUB (R16, R17). -/
  internal : Option Internal
  /-- THE MODEL'S OWN: the answer of the last stage-level evaluation (log 7). -/
  stage : StageOut
  deriving DecidableEq, Repr

/-- Why the machine stops with a fault: there is no reason. "The unit raises no synchronous exception of any kind;
the set of cause codes is empty" (R92), so the type has no constructor. -/
inductive Fault where
  deriving DecidableEq, Repr

/-- Why the model gives an instruction no meaning. -/
inductive Refusal where
  /-- An instruction that has no meaning yet; raised by an arm of exec only. Safe. -/
  | notModelled (mnemonic : String)
  /-- Raised by PIPE, FADD_T and FSUB_T on an operand that is not at rest: these functions "are specified for at-rest
  operands only" (D22, R71, U11). Safe: nothing can be claimed of such an evaluation, and no transaction makes one. -/
  | operandNotAtRest
  deriving DecidableEq, Repr

/-- The moment before anything is presented. The unit has no reset and the spec gives no value to undriven inputs
(R19, R100): the three input ports stand at 0 (DESIGN CHOICE, log 2). Every output and wire has the value the function of
R15 gives at those inputs ("the value of every output at every moment", R19); it is that of vector A20. -/
def State.reset : State :=
  { pending := []
    inputs := { op := 0, a := 0, b := 0 }
    outputs := { rSign := 0, rExp := 1, rMan := 0, rBits := 0x00800000, eq := 0 }
    wireA := { sign := 0, exponent := 0, mantissa := 0 }
    wireB := { sign := 0, exponent := 0, mantissa := 0 }
    internal := some
      { cancel := 0
        pipe :=
          { sbEff := 0
            xa := 0x800000
            xb := 0x800000
            d := 0
            c := 0
            ya := 0x800000
            yb := 0x800000
            ec := 0
            ta := 0x800000
            tb := 0x800000
            acc := 0x01000000
            rs := 0
            mag := 0x01000000
            found := 1
            idx := 24
            delta := some 1
            nmag := 0x800000
            ne := 1
            frac := 0 } }
    stage := .nothing }

end Sys2Proof.Machine
end

