-- ==== Sys2Proof/Machine/Ops.lean ====
section
/-! DEFINITION. The word operations of 00_scope.md section 4, and the operations over State that the
meanings share. The unit has no register, no memory and takes no exception, so there is no register or memory
operation and no exception entry (R10, R20, R92). -/

namespace Sys2Proof.Machine

/-- `shr32` (R63): floor(w / 2^d) for every distance; 0 from 32 on (D7, log 11). -/
def shr32 (w : Word) (d : Nat) : Word := w >>> d

/-- `shl32` (R63): w * 2^d modulo 2^32 for every distance; 0 from 32 on (D7, log 11). -/
def shl32 (w : Word) (d : Nat) : Word := w <<< d

/-- `neg32` (R63): bitwise NOT plus 1. -/
def neg32 (w : Word) : Word := ~~~w + 1

/-- `zext_32` of a 1-bit value. -/
def zextBit (b : Bit) : Word := b.setWidth 32

/-- The host presents the next transaction: the first of its list goes on the ports; with an empty list the ports
are held (R104, R105, log 3). -/
def State.present (s : State) : State :=
  match s.pending with
  | [] => s
  | t :: rest => { s with inputs := t, pending := rest }

/-- The transaction word on the ports (R33). -/
def State.fetch (s : State) : TxWord := s.inputs.word

/-- Drive the ports and wires with one evaluation: the triple presented, the operands as FloatValues, the
internal signals where there are any, the result R with its packed word, and the equality bit (R15). `packed` is
PACK of R. -/
def State.drive (s : State) (t : Tx) (A B : FloatValue) (internal : Option Internal) (R : FloatValue) (packed : Word)
    (q : Bit) : State :=
  { s with
    inputs := t
    wireA := A
    wireB := B
    internal := internal
    outputs := { rSign := R.sign, rExp := R.exponent, rMan := R.mantissa, rBits := packed, eq := q } }

/-- Record what a stage-level evaluation answers; the unit's ports and wires are not touched (log 7). -/
def State.answer (s : State) (o : StageOut) : State := { s with stage := o }

end Sys2Proof.Machine
end

