-- ==== Sys2Proof/Machine/Operands.lean ====
section
/-! DEFINITION. Operand assembly (R34): the block fp_field_codec, the effective sign, and the at-rest check. -/

namespace Sys2Proof.Machine

/-- UNPACK (R40): sign bit 31, exponent bits [30:23] and mantissa bits [22:0], each zero-extended. -/
def unpack (w : Word) : FloatValue :=
  { sign := w.extractLsb' 31 1
    exponent := (w.extractLsb' 23 8).setWidth 32
    mantissa := (w.extractLsb' 0 23).setWidth 32 }

/-- PACK (R41): the three fields shifted to their places in a 32-bit word and OR-ed, nothing masked (D8, C4). -/
def pack (f : FloatValue) : Word :=
  shl32 (zextBit f.sign) 31 ||| shl32 f.exponent 23 ||| f.mantissa

/-- AtRest of 00_scope.md section 5. -/
def atRest (f : FloatValue) : Bool :=
  f.exponent.toNat ≤ 255 && f.mantissa.toNat ≤ 0x7FFFFF

/-- The inversion of the second operand's sign that FSUB applies (R81). -/
def signInvert (sb : Bit) : Bit := sb ^^^ 1

/-- The tuple with its sign inverted, NEG of R85. -/
def negValue (f : FloatValue) : FloatValue := { f with sign := signInvert f.sign }

/-- FNEGW (R38): the testbench's `a ^ 0x80000000`; not an operation of the unit. -/
def negWord (a : Word) : Word := a ^^^ 0x80000000

end Sys2Proof.Machine
end

