-- ==== Sys2Proof/Machine/Codec.lean ====
section
/-! DEFINITION. The meanings of the block fp_field_codec (40_field_codec.md). -/

namespace Sys2Proof.Machine

/-- UNPACK (R40). -/
def execUnpack (w : Word) (s : State) : Host.Outcome State Fault Refusal :=
  .next (s.answer (.value (unpack w)))

/-- PACK (R41). -/
def execPack (f : FloatValue) (s : State) : Host.Outcome State Fault Refusal :=
  .next (s.answer (.word (pack f)))

end Sys2Proof.Machine
end

