-- ==== Sys2Proof/Machine/Flags.lean ====
section
/-! DEFINITION. The conditions of the unit (R16): the internal `cancel` in its two forms, and the equality bit.
There is no status register and no sticky flag. -/

namespace Sys2Proof.Machine

/-- CANCEL_ADD (R70): signs differ and the aligned significands are equal, before two's-complement conversion. -/
def cancelAdd (sa sb : Bit) (ya yb : Word) : Bit := Bit.of (sa ≠ sb ∧ ya = yb)

/-- CANCEL_SUB (R80): equal signs, exponents and significands, on the operands as they arrive (D14, log 13). -/
def cancelSub (x y : FloatValue) : Bit :=
  Bit.of (x.sign = y.sign ∧ x.exponent = y.exponent ∧ x.mantissa ||| 0x00800000 = y.mantissa ||| 0x00800000)

/-- EQUALS (R88): exact equality of all three fields with the unpacked native word, over their full widths. -/
def equals (f : FloatValue) (n : Word) : Bit :=
  Bit.of (f.sign = (unpack n).sign ∧ f.exponent = (unpack n).exponent ∧ f.mantissa = (unpack n).mantissa)

end Sys2Proof.Machine
end

