-- ==== Sys2Proof/Machine/Equality.lean ====
section
/-! DEFINITION. Equality, the copy, and the reserved code (46_equality.md, R36, R38). -/

namespace Sys2Proof.Machine

/-- One evaluation of FEQ (R89): the FloatValue built from port a goes to the result ports, and `eq` compares it with
the native word on port b (D15). The pipeline's signals do not exist in it (R16). -/
def State.evaluateEquality (s : State) (a b : Word) : State :=
  s.drive { op := 2, a := a, b := b } (unpack a) (unpack b) none (unpack a) (pack (unpack a)) (equals (unpack a) b)

/-- EQUALS (R88). -/
def execEquals (f : FloatValue) (n : Word) (s : State) : Host.Outcome State Fault Refusal :=
  .next (s.answer (.bit (equals f n)))

/-- FEQ (R89): op 10. -/
def execFeq (a b : Word) (s : State) : Host.Outcome State Fault Refusal :=
  .next (s.evaluateEquality a b)

/-- FCOPY (R38): FEQ a, a. -/
def execFcopy (a : Word) (s : State) : Host.Outcome State Fault Refusal :=
  .next (s.evaluateEquality a a)

/-- op 11 (R36): "the hardware drives r_sign = 0, r_exp = 0, r_man = 0, r_bits = 0, eq = 0". The spec advises a model
to refuse it; this model takes the effect the spec gives (log 6). -/
def execReserved (a b : Word) (s : State) : Host.Outcome State Fault Refusal :=
  .next (s.drive { op := 3, a := a, b := b } (unpack a) (unpack b) none FloatValue.zero (pack FloatValue.zero) 0)

end Sys2Proof.Machine
end

