-- ==== Sys2Proof/Machine/Adder.lean ====
section
/-! DEFINITION. The block two_complement_mantissa_adder (43_twos_complement_adder.md). -/

namespace Sys2Proof.Machine

/-- TC_CONVERT (R60): the significand of a negative operand is negated. -/
def tcConvert (s : Bit) (y : Word) : Word := if s = 1 then neg32 y else y

/-- SUM (R61): the accumulator, modulo 2^32. -/
def sum (ta tb : Word) : Word := ta + tb

/-- A sign and a non-negative magnitude (R62). -/
structure SignMag where
  rs : Bit
  mag : Word
  deriving DecidableEq, Repr

/-- SIGN_RECOVER (R62): the sign is bit 31 of the accumulator; a negative sum is negated back. -/
def signRecover (acc : Word) : SignMag :=
  if acc.getLsbD 31 = true then { rs := 1, mag := neg32 acc } else { rs := 0, mag := acc }

/-- TC_CONVERT (R60). -/
def execTcConvert (s : Bit) (y : Word) (st : State) : Host.Outcome State Fault Refusal :=
  .next (st.answer (.word (tcConvert s y)))

/-- SUM (R61). -/
def execSum (ta tb : Word) (s : State) : Host.Outcome State Fault Refusal :=
  .next (s.answer (.word (sum ta tb)))

/-- SIGN_RECOVER (R62). -/
def execSignRecover (acc : Word) (s : State) : Host.Outcome State Fault Refusal :=
  .next (s.answer (.signMag (signRecover acc).rs (signRecover acc).mag))

end Sys2Proof.Machine
end

