-- ==== Sys2Proof/Config.lean ====
section
/-! DEFINITION. The parameters of the unit (R5): the fixed ones a rule reads, and the two the spec leaves open. -/

namespace Sys2Proof

/-- BIAS of R5: the exponent bias. No computation of the unit reads it (R6); only the value formula does. -/
def Config.bias : Nat := 127

/-- IMPLICIT_BIT of R5: the index of the implicit leading 1. -/
def Config.implicitBit : Nat := 23

/-- MSB_START of R5: the index at which the search for the most significant bit starts. -/
def Config.msbStart : BitVec 5 := 24

/-- The two OPEN parameters of the algorithm, as the arguments R5 says the model takes.
`carry sig d` is what SUB_CARRY answers where R52 does not force it to 0; `zeroMagExp` is ZERO_MAG_EXP (R54).
Every stage that reads one of them takes this record, so that a statement can range over all of them. -/
structure OpenParams where
  carry : BitVec 24 → Nat → Bit
  zeroMagExp : Word → Word

/-- FREE VALUE (log 4): the carry compensation of this instance where the shifted-out bits are not all zero
(R52, D9, U1). No body: nothing can evaluate it. -/
opaque Config.freeCarry : BitVec 24 → Nat → Bit

/-- FREE VALUE (log 5): the result exponent of a zero magnitude that was not flagged as exact cancellation
(R54, D10, U2). No body: nothing can evaluate it. -/
opaque Config.freeZeroMagExp : Word → Word

/-- The open parameters of this instance, fixed for its whole life (R101). -/
def Config.params : OpenParams :=
  { carry := Config.freeCarry, zeroMagExp := Config.freeZeroMagExp }

end Sys2Proof
end

