-- ==== Sys2Proof/Machine/Mantissa.lean ====
section
/-! DEFINITION. The mantissa utilities of the block fp_mantissa_align_normalize (41_mantissa_utilities.md). -/

namespace Sys2Proof.Machine

/-- WITH_IMPLICIT_BIT (R45): sets bit 23 of the mantissa, whatever the operand is; no zero guard (C3, log 12). -/
def withImplicitBit (f : FloatValue) : FloatValue := { f with mantissa := f.mantissa ||| 0x00800000 }

/-- BIT_AT (R46): bit `i` of the mantissa; sign and exponent are not read. -/
def bitAt (f : FloatValue) (i : BitVec 5) : Bit := (shr32 f.mantissa i.toNat).setWidth 1

/-- What the search for the most significant bit answers (R47): `found`, and `idx`, which is 0 and not to be used
when nothing was found (D11). -/
structure Msb where
  found : Bit
  idx : BitVec 5
  deriving DecidableEq, Repr

/-- The scan of R47 from index `i` down to 0. -/
def scanMsb (m : Word) : Nat → Msb
  | 0 => if bitAt { sign := 0, exponent := 0, mantissa := m } 0 = 1 then { found := 1, idx := 0 } else { found := 0, idx := 0 }
  | i + 1 =>
    if bitAt { sign := 0, exponent := 0, mantissa := m } (BitVec.ofNat 5 (i + 1)) = 1 then
      { found := 1, idx := BitVec.ofNat 5 (i + 1) }
    else scanMsb m i

/-- FIND_MSB (R47). -/
def findMsb (m : Word) (start : BitVec 5) : Msb := scanMsb m start.toNat

/-- WITH_IMPLICIT_BIT (R45). -/
def execWithImplicitBit (f : FloatValue) (s : State) : Host.Outcome State Fault Refusal :=
  .next (s.answer (.value (withImplicitBit f)))

/-- BIT_AT (R46). -/
def execBitAt (f : FloatValue) (i : BitVec 5) (s : State) : Host.Outcome State Fault Refusal :=
  .next (s.answer (.bit (bitAt f i)))

/-- FIND_MSB (R47). -/
def execFindMsb (m : Word) (start : BitVec 5) (s : State) : Host.Outcome State Fault Refusal :=
  .next (s.answer (.msb (findMsb m start).found (findMsb m start).idx))

end Sys2Proof.Machine
end

