-- ==== Sys2Proof/Machine/AlignNormalize.lean ====
section
/-! DEFINITION. Alignment, carry compensation, renormalisation and stripping: the rest of the block
fp_mantissa_align_normalize (42_align_normalize.md). -/

namespace Sys2Proof.Machine

/-- SUB_CARRY (R52): 0 when every bit shifted out is 0 (item 5, of which item 4 is an instance), else the free
decision of this instance (items 1 to 3, D9, log 4). The distance is a number: R52 gives it 8 bits, 1 to 255, and the
stage-level values beyond that are log 16. -/
def subCarry (p : OpenParams) (sig : BitVec 24) (d : Nat) : Bit :=
  if sig.toNat % 2 ^ d = 0 then 0 else p.carry sig d

/-- What ALIGN answers (R50): the aligned significands, the common exponent, and for reference the distance and
the carry. -/
structure Aligned where
  ya : Word
  yb : Word
  ec : Word
  d : Word
  c : Bit
  deriving DecidableEq, Repr

/-- The carry that ALIGN adds: SUB_CARRY in FSUB, 0 in FADD (R50). -/
def alignCarry (p : OpenParams) (x : Word) (d : Word) (comp : Bit) : Bit :=
  if comp = 1 then subCarry p (x.setWidth 24) d.toNat else 0

/-- ALIGN (R50): the significand with the smaller exponent is shifted right by the difference; unsigned comparison
(D23); nothing moves, and no carry is considered, when the exponents are equal. -/
def align (p : OpenParams) (xa ea xb eb : Word) (comp : Bit) : Aligned :=
  if ea < eb then
    let d := eb - ea
    let c := alignCarry p xa d comp
    { ya := shr32 xa d.toNat + zextBit c, yb := xb, ec := eb, d := d, c := c }
  else if eb < ea then
    let d := ea - eb
    let c := alignCarry p xb d comp
    { ya := xa, yb := shr32 xb d.toNat + zextBit c, ec := ea, d := d, c := c }
  else { ya := xa, yb := xb, ec := ea, d := 0, c := 0 }

/-- What RENORM answers (R53), with the search's index and `delta`; `delta` is absent when nothing was found
(log 14). -/
structure Renormed where
  nmag : Word
  ne : Word
  found : Bit
  idx : BitVec 5
  delta : Option Int
  deriving DecidableEq, Repr

/-- RENORM (R53): the most significant bit goes to bit 23 and the exponent, modulo 2^32, compensates the shift. When no
bit is found the exponent is the open ZERO_MAG_EXP (R54, log 5). -/
def renorm (p : OpenParams) (mag ec : Word) : Renormed :=
  let m := findMsb mag Config.msbStart
  if m.found = 0 then { nmag := 0, ne := p.zeroMagExp ec, found := m.found, idx := m.idx, delta := none }
  else
    let delta : Int := (m.idx.toNat : Int) - Config.implicitBit
    if delta > 0 then
      { nmag := shr32 mag delta.toNat, ne := ec + BitVec.ofNat 32 delta.toNat, found := m.found, idx := m.idx
        delta := some delta }
    else if delta < 0 then
      { nmag := shl32 mag (-delta).toNat, ne := ec - BitVec.ofNat 32 (-delta).toNat, found := m.found, idx := m.idx
        delta := some delta }
    else { nmag := mag, ne := ec, found := m.found, idx := m.idx, delta := some delta }

/-- STRIP (R55): clears bit 23 of a non-zero magnitude. -/
def strip (nmag : Word) : Word := if nmag ≠ 0 then nmag &&& 0xFF7FFFFF else 0

/-- ALIGN (R50). -/
def execAlign (xa ea xb eb : Word) (comp : Bit) (s : State) : Host.Outcome State Fault Refusal :=
  let r := align Config.params xa ea xb eb comp
  .next (s.answer (.aligned r.ya r.yb r.ec r.d r.c))

/-- SUB_CARRY (R52). -/
def execSubCarry (sig : BitVec 24) (d : BitVec 8) (s : State) : Host.Outcome State Fault Refusal :=
  .next (s.answer (.bit (subCarry Config.params sig d.toNat)))

/-- RENORM (R53, R54). -/
def execRenorm (mag ec : Word) (s : State) : Host.Outcome State Fault Refusal :=
  let r := renorm Config.params mag ec
  .next (s.answer (.renormed r.nmag r.ne r.found))

/-- STRIP (R55). -/
def execStrip (nmag : Word) (s : State) : Host.Outcome State Fault Refusal :=
  .next (s.answer (.word (strip nmag)))

end Sys2Proof.Machine
end

