-- ==== Sys2Proof/Machine/Addition.lean ====
section
/-! DEFINITION. Addition: the shared pipeline, FINALIZE, FADD_T and FADD (44_addition.md). -/

namespace Sys2Proof.Machine

/-- PIPE (R71): steps 1, 2 and 4 to 8 on the first operand and the second operand with its effective sign. All
the wires of R17 but `cancel`, which the caller makes (step 3 in FADD, before the pipeline in FSUB). -/
def pipe (p : OpenParams) (x y : FloatValue) (comp : Bit) : PipeWires :=
  let xa := (withImplicitBit x).mantissa
  let xb := (withImplicitBit y).mantissa
  let al := align p xa x.exponent xb y.exponent comp
  let ta := tcConvert x.sign al.ya
  let tb := tcConvert y.sign al.yb
  let acc := sum ta tb
  let sm := signRecover acc
  let rn := renorm p sm.mag al.ec
  { sbEff := y.sign, xa := xa, xb := xb, d := al.d, c := al.c, ya := al.ya, yb := al.yb, ec := al.ec
    ta := ta, tb := tb, acc := acc, rs := sm.rs, mag := sm.mag
    found := rn.found, idx := rn.idx, delta := rn.delta, nmag := rn.nmag, ne := rn.ne, frac := strip rn.nmag }

/-- FINALIZE (R72): exact cancellation overrides the result with the exact-zero tuple, unconditionally (R94). -/
def finalize (cancel rs : Bit) (ne frac : Word) : FloatValue :=
  if cancel = 1 then FloatValue.zero else { sign := rs, exponent := ne, mantissa := frac }

/-- The result FloatValue of an evaluation of the pipeline (R72). -/
def Internal.result (n : Internal) : FloatValue := finalize n.cancel n.pipe.rs n.pipe.ne n.pipe.frac

/-- The signals of an addition (R73): the pipeline without carry compensation, and CANCEL_ADD on the aligned
significands. -/
def additionSignals (p : OpenParams) (x y : FloatValue) : Internal :=
  let w := pipe p x y 0
  { cancel := cancelAdd x.sign y.sign w.ya w.yb, pipe := w }

/-- FADD_T (R73). -/
def faddT (p : OpenParams) (x y : FloatValue) : FloatValue := (additionSignals p x y).result

/-- CANCEL_ADD (R70). -/
def execCancelAdd (sa sb : Bit) (ya yb : Word) (s : State) : Host.Outcome State Fault Refusal :=
  .next (s.answer (.bit (cancelAdd sa sb ya yb)))

/-- PIPE (R71). It refuses operands that are not at rest (D22, log 9). -/
def execPipe (x y : FloatValue) (comp : Bit) (s : State) : Host.Outcome State Fault Refusal :=
  if atRest x && atRest y then
    let w := pipe Config.params x y comp
    .next (s.answer (.piped w.rs w.ne w.frac w.ya w.yb))
  else .refused .operandNotAtRest

/-- FINALIZE (R72). -/
def execFinalize (cancel rs : Bit) (ne frac : Word) (s : State) : Host.Outcome State Fault Refusal :=
  .next (s.answer (.value (finalize cancel rs ne frac)))

/-- FADD_T (R73). It refuses operands that are not at rest (D22, log 9). -/
def execFaddT (x y : FloatValue) (s : State) : Host.Outcome State Fault Refusal :=
  if atRest x && atRest y then .next (s.answer (.value (faddT Config.params x y)))
  else .refused .operandNotAtRest

/-- FADD (R77): op 00; `eq` is 0 (D15). -/
def execFadd (a b : Word) (s : State) : Host.Outcome State Fault Refusal :=
  let n := additionSignals Config.params (unpack a) (unpack b)
  .next (s.drive { op := 0, a := a, b := b } (unpack a) (unpack b) (some n) n.result (pack n.result) 0)

end Sys2Proof.Machine
end

