-- ==== Sys2Proof/Machine/Subtraction.lean ====
section
/-! DEFINITION. Subtraction: CANCEL_SUB, the sign inversion, FSUB_T and FSUB (45_subtraction.md). -/

namespace Sys2Proof.Machine

/-- The signals of a subtraction (R82): CANCEL_SUB on the operands as they arrive, before the pipeline, then the
pipeline with the second operand's sign inverted and carry compensation. -/
def subtractionSignals (p : OpenParams) (x y : FloatValue) : Internal :=
  { cancel := cancelSub x y, pipe := pipe p x (negValue y) 1 }

/-- FSUB_T (R82). -/
def fsubT (p : OpenParams) (x y : FloatValue) : FloatValue := (subtractionSignals p x y).result

/-- CANCEL_SUB (R80). -/
def execCancelSub (x y : FloatValue) (s : State) : Host.Outcome State Fault Refusal :=
  .next (s.answer (.bit (cancelSub x y)))

/-- SIGN_INVERT (R81). -/
def execSignInvert (sb : Bit) (s : State) : Host.Outcome State Fault Refusal :=
  .next (s.answer (.bit (signInvert sb)))

/-- FSUB_T (R82). It refuses operands that are not at rest (D22, log 9). -/
def execFsubT (x y : FloatValue) (s : State) : Host.Outcome State Fault Refusal :=
  if atRest x && atRest y then .next (s.answer (.value (fsubT Config.params x y)))
  else .refused .operandNotAtRest

/-- FSUB (R83): op 01, the result is a - b; `eq` is 0 (D15). -/
def execFsub (a b : Word) (s : State) : Host.Outcome State Fault Refusal :=
  let n := subtractionSignals Config.params (unpack a) (unpack b)
  .next (s.drive { op := 1, a := a, b := b } (unpack a) (unpack b) (some n) n.result (pack n.result) 0)

end Sys2Proof.Machine
end

