-- ==== Sys2Proof/Machine/Dispatch.lean ====
section
/-! DEFINITION. Which meaning each instruction has: one arm per constructor. -/

namespace Sys2Proof.Machine

def exec (i : Instr) (s : State) : Host.Outcome State Fault Refusal :=
  match i with
  -- the transactions (R35)
  | .fadd a b => Sys2Proof.Machine.execFadd a b s
  | .fsub a b => Sys2Proof.Machine.execFsub a b s
  | .feq a b => Sys2Proof.Machine.execFeq a b s
  | .reserved a b => Sys2Proof.Machine.execReserved a b s
  -- fp_field_codec
  | .unpack w => Sys2Proof.Machine.execUnpack w s
  | .pack f => Sys2Proof.Machine.execPack f s
  -- fp_mantissa_align_normalize
  | .withImplicitBit f => Sys2Proof.Machine.execWithImplicitBit f s
  | .bitAt f k => Sys2Proof.Machine.execBitAt f k s
  | .findMsb m start => Sys2Proof.Machine.execFindMsb m start s
  | .align xa ea xb eb comp => Sys2Proof.Machine.execAlign xa ea xb eb comp s
  | .subCarry sig d => Sys2Proof.Machine.execSubCarry sig d s
  | .renorm mag ec => Sys2Proof.Machine.execRenorm mag ec s
  | .strip nmag => Sys2Proof.Machine.execStrip nmag s
  -- two_complement_mantissa_adder
  | .tcConvert sg y => Sys2Proof.Machine.execTcConvert sg y s
  | .sum ta tb => Sys2Proof.Machine.execSum ta tb s
  | .signRecover acc => Sys2Proof.Machine.execSignRecover acc s
  -- the top level
  | .cancelAdd sa sb ya yb => Sys2Proof.Machine.execCancelAdd sa sb ya yb s
  | .pipe x y comp => Sys2Proof.Machine.execPipe x y comp s
  | .finalize cancel rs ne frac => Sys2Proof.Machine.execFinalize cancel rs ne frac s
  | .faddT x y => Sys2Proof.Machine.execFaddT x y s
  | .cancelSub x y => Sys2Proof.Machine.execCancelSub x y s
  | .signInvert sb => Sys2Proof.Machine.execSignInvert sb s
  | .fsubT x y => Sys2Proof.Machine.execFsubT x y s
  | .equals f n => Sys2Proof.Machine.execEquals f n s
  | .fcopy a => Sys2Proof.Machine.execFcopy a s

end Sys2Proof.Machine
end

