-- ==== Sys2Proof/Machine/Step.lean ====
section
/-! DEFINITION. One step: one transaction (R105, D2). -/

namespace Sys2Proof.Machine

/-- One step: the host presents the next transaction, and the unit evaluates what stands on its ports. -/
def step (s : State) : Host.Outcome State Fault Refusal :=
  exec (decode s.present.fetch) s.present

/-- The state whose next step evaluates the transaction of `nbits` table bits `w`: it stands first in the host's
list (log 3). -/
def State.withFetchWord (s : State) (nbits w : Nat) : State :=
  { s with pending := Tx.ofWord (BitVec.ofNat 66 (w % 2 ^ nbits)) :: s.pending }

end Sys2Proof.Machine
end

