-- ==== Sys2Proof/Safety.lean ====
section
/-! DEFINITION. The terms claims use: the domain predicates and the value formula of 00_scope.md, the top-level
function of R15, the invariants, and addition and subtraction in plain integer arithmetic. Nothing here is read by
the machine. -/

namespace Sys2Proof.Machine

/-! ### Domain predicates (00_scope.md section 5) -/

/-- `Normal(w)`: the exponent field of the word is 1 to 254. -/
abbrev Normal (w : Word) : Prop := 1 ≤ (unpack w).exponent.toNat ∧ (unpack w).exponent.toNat ≤ 254

/-- `InDomain(a, b)`. -/
abbrev InDomain (a b : Word) : Prop := Normal a ∧ Normal b

/-- `AtRest(s, e, m)`, as a proposition. -/
abbrev AtRest (f : FloatValue) : Prop := f.exponent.toNat ≤ 255 ∧ f.mantissa.toNat ≤ 0x7FFFFF

/-- The result's exponent is that of a normal number, 1 to 254: the premise R74 and R95 ask of a claim about the
number a result denotes. (`ResultNormal` also admits the tuple (0, 0, 0), which vector A26 shows to arise from a
difference that is not zero; a claim about values therefore takes this premise.) -/
abbrev NormalExponent (e : Word) : Prop := 1 ≤ e.toNat ∧ e.toNat ≤ 254

/-! ### The number a tuple denotes (R6) -/

/-- The significand with its implicit 1, `1.mantissa * 2^23`. -/
def significand (f : FloatValue) : Nat := 2 ^ Config.implicitBit + f.mantissa.toNat

/-- `-1` for a set sign bit, else `1`. -/
def signFactor (s : Bit) : Int := if s = 1 then -1 else 1

/-- The real number a tuple with exponent field 1 to 254 denotes (R6):
`(-1)^sign * (1 + mantissa / 2^23) * 2^(exponent - 127)`. -/
def value (f : FloatValue) : ℚ :=
  (signFactor f.sign : ℚ) * (1 + (f.mantissa.toNat : ℚ) / 2 ^ Config.implicitBit)
    * (2 : ℚ) ^ ((f.exponent.toNat : ℤ) - (Config.bias : ℤ))

/-- One unit in the last place at a common exponent. -/
def ulp (ec : Word) : ℚ := (2 : ℚ) ^ ((ec.toNat : ℤ) - (Config.bias : ℤ) - (Config.implicitBit : ℤ))

/-! ### The top-level function (R15) -/

/-- R and q of R15 for the values on the input ports. -/
def topLevel (p : OpenParams) (t : Tx) : FloatValue × Bit :=
  match t.op with
  | 0 => (faddT p (unpack t.a) (unpack t.b), 0)
  | 1 => (fsubT p (unpack t.a) (unpack t.b), 0)
  | 2 => (unpack t.a, equals (unpack t.a) t.b)
  | 3 => (FloatValue.zero, 0)

/-- The output ports for a result and an equality bit: the three fields, PACK of them, and the bit (R15). -/
def outputsOf (R : FloatValue) (q : Bit) : Outputs :=
  { rSign := R.sign, rExp := R.exponent, rMan := R.mantissa, rBits := pack R, eq := q }

/-! ### Invariants -/

/-- The ports and wires of one state belong together (R15, R16, R19): the outputs are the function of R15 of the
values on the input ports, the wires A and B are the unpacked operands, and the pipeline's signals exist exactly
for op 00 and 01. -/
structure Coherent (s : State) : Prop where
  outputs : s.outputs = outputsOf (topLevel Config.params s.inputs).1 (topLevel Config.params s.inputs).2
  wireA : s.wireA = unpack s.inputs.a
  wireB : s.wireB = unpack s.inputs.b
  addition : s.inputs.op = 0 → s.internal = some (additionSignals Config.params s.wireA s.wireB)
  subtraction : s.inputs.op = 1 → s.internal = some (subtractionSignals Config.params s.wireA s.wireB)
  noPipeline : s.inputs.op = 2 ∨ s.inputs.op = 3 → s.internal = none

/-- The ranges R17 gives the wires of the pipeline, and what R53 and R62 say ties them together. -/
structure WiresInRange (n : Internal) : Prop where
  xa : 0x800000 ≤ n.pipe.xa.toNat ∧ n.pipe.xa.toNat ≤ 0xFFFFFF
  xb : 0x800000 ≤ n.pipe.xb.toNat ∧ n.pipe.xb.toNat ≤ 0xFFFFFF
  d : n.pipe.d.toNat ≤ 255
  ya : n.pipe.ya.toNat ≤ 0xFFFFFF
  yb : n.pipe.yb.toNat ≤ 0xFFFFFF
  ec : n.pipe.ec.toNat ≤ 255
  mag : n.pipe.mag.toNat ≤ 0x1FFFFFE
  found : n.pipe.found = 1 ↔ n.pipe.mag ≠ 0
  delta : ∀ z, n.pipe.delta = some z → -23 ≤ z ∧ z ≤ 1 ∧ n.pipe.ne = n.pipe.ec + BitVec.ofInt 32 z
  nmag : n.pipe.mag ≠ 0 → 0x800000 ≤ n.pipe.nmag.toNat ∧ n.pipe.nmag.toNat ≤ 0xFFFFFF
  frac : n.pipe.frac.toNat ≤ 0x7FFFFF

/-! ### Addition and subtraction in integers

The pipeline's result said without two's complement, bit search or shifts of words: the signed integer sum of the
truncated significands at the common exponent, then its leading bit brought to position 23. -/

/-- The common exponent of two tuples, the larger one (R50). -/
def commonExponent (x y : FloatValue) : Nat := max x.exponent.toNat y.exponent.toNat

/-- The bits of the significand that alignment to exponent `ec` shifts out. -/
def lostBits (f : FloatValue) (ec : Nat) : Nat := significand f % 2 ^ (ec - f.exponent.toNat)

/-- The signed significand at exponent `ec`: truncated toward zero (R51), plus a carry. -/
def alignedInteger (f : FloatValue) (ec carry : Nat) : Int :=
  signFactor f.sign * (significand f / 2 ^ (ec - f.exponent.toNat) + carry : Nat)

/-- The tuple for a non-zero signed integer `v` at exponent `ec`: its leading bit, at position k, becomes the implicit
bit, what falls below is truncated, and the exponent is compensated modulo 2^32 (R53, R55). -/
def normalizedTuple (v : Int) (ec : Nat) : FloatValue :=
  let k := v.natAbs.log2
  { sign := Bit.of (v < 0)
    exponent := BitVec.ofInt 32 ((ec : Int) + k - 23)
    mantissa := BitVec.ofNat 32 (v.natAbs * 2 ^ 23 / 2 ^ k - 2 ^ 23) }

/-- The integer sum of FADD_T. -/
def integerSum (x y : FloatValue) : Int :=
  alignedInteger x (commonExponent x y) 0 + alignedInteger y (commonExponent x y) 0

/-- FADD_T in integers. -/
def integerAdd (x y : FloatValue) : FloatValue :=
  if integerSum x y = 0 then FloatValue.zero else normalizedTuple (integerSum x y) (commonExponent x y)

/-- The carry FSUB_T adds to an operand at exponent `ec`: none on the operand that is not shifted (R50 (a), (e)). -/
def carryInto (p : OpenParams) (f : FloatValue) (ec : Nat) : Nat :=
  if f.exponent.toNat < ec then
    (subCarry p (BitVec.ofNat 24 (significand f)) (ec - f.exponent.toNat)).toNat
  else 0

/-- The integer difference of FSUB_T. -/
def integerDifference (p : OpenParams) (x y : FloatValue) : Int :=
  let ec := commonExponent x y
  alignedInteger x ec (carryInto p x ec) - alignedInteger y ec (carryInto p y ec)

/-- FSUB_T in integers: equal operands are exact cancellation; a zero difference of unequal operands has the open
exponent of R54. -/
def integerSub (p : OpenParams) (x y : FloatValue) : FloatValue :=
  if x = y then FloatValue.zero
  else if integerDifference p x y = 0 then
    { sign := 0, exponent := p.zeroMagExp (BitVec.ofNat 32 (commonExponent x y)), mantissa := 0 }
  else normalizedTuple (integerDifference p x y) (commonExponent x y)

end Sys2Proof.Machine
end

