-- ==== Sys2Proof/Certificates/Slice0/Obligations.lean ====
section
/-! DEFINITION. The statements for the provers. Each says which rule of spec/ it formalises. -/

open Sys2Proof Sys2Proof.Machine

/-! ### Encoding -/

/-- The round trip from instructions (R33, R35, R38): every instruction that bits select is encoded, and decoding gives
it back, for all operands; FCOPY gives the FEQ it abbreviates. The codes are the spec's decision D4. -/
def Obligations.EncodeThenDecodeGivesTheInstruction : Prop :=
  (∀ a b : Word, ∃ w, encode (.fadd a b) = some w ∧ decode w = .fadd a b)
  ∧ (∀ a b : Word, ∃ w, encode (.fsub a b) = some w ∧ decode w = .fsub a b)
  ∧ (∀ a b : Word, ∃ w, encode (.feq a b) = some w ∧ decode w = .feq a b)
  ∧ (∀ a b : Word, ∃ w, encode (.reserved a b) = some w ∧ decode w = .reserved a b)
  ∧ (∀ a : Word, ∃ w, encode (.fcopy a) = some w ∧ decode w = .feq a a)

/-- The round trip from words: every one of the 2^66 transaction words has one meaning, and encoding it gives the
word back, so no bit is dropped (R33, R36). -/
def Obligations.DecodeThenEncodeGivesTheWord : Prop :=
  ∀ w : TxWord, encode (decode w) = some w

/-- The three fields of a transaction word stand at bits [65:64], [63:32] and [31:0] (R33; notation of D20). -/
def Obligations.TransactionFieldsStandAtTheirBits : Prop :=
  ∀ w : TxWord,
    (Tx.ofWord w).op.toNat = w.toNat / 2 ^ 64 ∧ (Tx.ofWord w).a.toNat = w.toNat / 2 ^ 32 % 2 ^ 32
      ∧ (Tx.ofWord w).b.toNat = w.toNat % 2 ^ 32

/-- Four words written out in 95_test_vectors.md (S1, S5, E1, X1) decode as they should (R33, R35). The fifth number
has a bit above bit 65 and stands in no vector: that it is no transaction word and is rejected (widerThanTx) is the
model's choice, log 18. -/
def Obligations.WrittenOutWordsDecode : Prop :=
  decodeTableWord 72 0x03FC0000040100000 = some (.fadd 0x3FC00000 0x40100000)
  ∧ decodeTableWord 72 0x14040000040A00000 = some (.fsub 0x40400000 0x40A00000)
  ∧ decodeTableWord 72 0x24070000040700000 = some (.feq 0x40700000 0x40700000)
  ∧ decodeTableWord 72 0x33F8000003F800000 = some (.reserved 0x3F800000 0x3F800000)
  ∧ decodeTableWord 72 0x43F8000003F800000 = none

/-! ### The step -/

/-- A step runs the decoded transaction (R33, R35, R105): the first transaction of the host's list, which leaves the list,
or, with an empty list, the one that stands on the ports; and `withFetchWord` puts a word where the next step reads
it. How the list is presented is the model's choice, log 3. -/
def Obligations.StepRunsTheDecodedTransaction : Prop :=
  (∀ (s : State) (t : Tx) (rest : List Tx), s.pending = t :: rest →
      step s = exec (decode t.word) { s with inputs := t, pending := rest })
  ∧ (∀ s : State, s.pending = [] → step s = exec (decode s.inputs.word) s)
  ∧ (∀ (s : State) (nbits w : Nat) (i : Instr), decodeTableWord nbits w = some i →
      step (s.withFetchWord nbits w)
        = exec i { s with inputs := Tx.ofWord (BitVec.ofNat 66 (w % 2 ^ nbits)) })

/-- The machine is total (R4, R92): from every state a step answers a next state. For op 11 this rests on log 6. -/
def Obligations.EveryStepCompletes : Prop :=
  ∀ s : State, ∃ t, step s = .next t

/-- The host's list (R105; its form is log 3): a step uses up its first transaction, presents it, and changes nothing
of the rest of the list or of the stage-level answer. -/
def Obligations.StepUsesOneTransaction : Prop :=
  ∀ s t : State, step s = .next t →
    t.pending = s.pending.tail ∧ t.inputs = s.pending.headD s.inputs ∧ t.stage = s.stage

/-- INVARIANT: every step keeps the ports and wires coherent: the outputs are the function of R15 of the inputs, the
wires A and B are the unpacked operands, and the pipeline's signals exist exactly in FADD and FSUB (R15, R16, R19). -/
def Obligations.StepKeepsPortsAndWiresCoherent : Prop :=
  ∀ s t : State, Coherent s → step s = .next t → Coherent t

/-- Every instruction keeps the ports and wires coherent, the stage-level evaluations too: none of them disturbs a
port (R15, R18). -/
def Obligations.EveryInstructionKeepsCoherence : Prop :=
  ∀ (i : Instr) (s t : State), Coherent s → exec i s = .next t → Coherent t

/-- At reset the ports and wires are coherent and every wire is in its range. The input values are the model's choice,
log 2; the rest is R19. -/
def Obligations.ResetIsCoherentAndInRange : Prop :=
  Coherent State.reset ∧ ∀ n, State.reset.internal = some n → WiresInRange n

/-- INVARIANT: in every state a step reaches, every wire of the pipeline is in the range R17 gives it, and the fraction
port has bits [31:23] zero (R14, R15). -/
def Obligations.StepKeepsEveryWireInItsRange : Prop :=
  ∀ s t : State, step s = .next t →
    (∀ n, t.internal = some n → WiresInRange n) ∧ t.outputs.rMan.toNat ≤ 0x7FFFFF

/-- Purity (R18): two steps that evaluate the same triple give the same outputs, wires and signals, whatever the two
states held otherwise, and neither changes the triple. -/
def Obligations.EqualTriplesGiveEqualOutputs : Prop :=
  ∀ s u t v : State, s.present.inputs = u.present.inputs → step s = .next t → step u = .next v →
    t.outputs = v.outputs ∧ t.wireA = v.wireA ∧ t.wireB = v.wireB ∧ t.internal = v.internal
      ∧ t.inputs = s.present.inputs ∧ v.inputs = u.present.inputs

/-- Every evaluation is idempotent (R22): a step on held ports changes nothing. -/
def Obligations.EvaluatingHeldPortsAgainChangesNothing : Prop :=
  ∀ s t : State, step s = .next t → t.pending = [] → step t = .next t

/-! ### Addition -/

/-- REFINEMENT: FADD drives on its output ports, for all operand words, the tuple that plain integer arithmetic gives:
the signed sum of the truncated significands at the larger exponent, leading bit brought to position 23, the
exact-zero tuple when the sum is 0; eq is 0 (R70 to R73, R77 with R50, R53, R55, R60 to R62). The input ports hold the
triple; the host's list and the stage-level answer are unchanged (the operand wires and the pipeline's signals change;
they are the subject of other statements). No open parameter takes part. It rests on the spec's decisions D6
(exponents modulo 2^32, log 10), D7 (shifts by 32 or more, log 11), D13 (no zero guard, log 12) and D15 (eq is 0, log
20). -/
def Obligations.FaddDrivesTheIntegerSum : Prop :=
  ∀ (a b : Word) (s : State), ∃ t, exec (.fadd a b) s = .next t
    ∧ t.outputs = outputsOf (integerAdd (unpack a) (unpack b)) 0
    ∧ t.inputs = { op := 0, a := a, b := b } ∧ t.pending = s.pending ∧ t.stage = s.stage

/-- Exact cancellation (R76 (a), R70, R72): `a + (-a)` drives the exact-zero tuple for every word, special or not. -/
def Obligations.FaddOfTheNegationIsExactZero : Prop :=
  ∀ (a : Word) (s : State), ∃ t, exec (.fadd a (negWord a)) s = .next t
    ∧ t.outputs = { rSign := 0, rExp := 0, rMan := 0, rBits := 0, eq := 0 }

/-- The flag of addition is raised for `x + (-x)` and for nothing else (R70, corner cases). -/
def Obligations.FaddFlagsExactlyTheNegation : Prop :=
  ∀ (a b : Word) (s : State), ∃ t n, exec (.fadd a b) s = .next t ∧ t.internal = some n
    ∧ (n.cancel = 1 ↔ b = negWord a)

/-- Addition is commutative, on all operand pairs and all output ports (R76 (b)). -/
def Obligations.FaddIsCommutative : Prop :=
  ∀ (a b : Word) (s : State), ∃ t u, exec (.fadd a b) s = .next t ∧ exec (.fadd b a) s = .next u
    ∧ t.outputs = u.outputs

/-- Doubling is exact: `a + a` keeps sign and mantissa and adds 1 to the exponent, for every word (R76 (c)). -/
def Obligations.FaddOfAWordWithItselfDoubles : Prop :=
  ∀ (a : Word) (s : State), ∃ t, exec (.fadd a a) s = .next t
    ∧ t.outputs.rSign = (unpack a).sign ∧ t.outputs.rExp.toNat = (unpack a).exponent.toNat + 1
    ∧ t.outputs.rMan = (unpack a).mantissa

/-- An exponent gap of 24 or more makes the smaller operand vanish, whichever it is: the result is the larger operand
(R50 (b)). For gaps of 32 and more this rests on the spec's decision D7, log 11. -/
def Obligations.FaddKeepsTheLargerOperandAcrossAWideGap : Prop :=
  ∀ (a b : Word) (s : State), (unpack b).exponent.toNat + 24 ≤ (unpack a).exponent.toNat →
    ∃ t u, exec (.fadd a b) s = .next t ∧ exec (.fadd b a) s = .next u
      ∧ t.outputs = outputsOf (unpack a) 0 ∧ u.outputs = outputsOf (unpack a) 0 ∧ t.outputs.rBits = a

/-- The range of a result of FADD, and of FSUB when the magnitude is not zero (R74): a fraction of 23 bits, an exponent
of 0 to 256 or -23 to -1 modulo 2^32, and from operands in the domain 0 to 255 or -22 to -1. -/
def Obligations.ResultExponentsStayInTheirRange : Prop :=
  ∀ (a b : Word) (s : State),
    (∃ t, exec (.fadd a b) s = .next t ∧ t.outputs.rMan.toNat ≤ 0x7FFFFF
      ∧ (t.outputs.rExp.toNat ≤ 256 ∨ 0xFFFFFFE9 ≤ t.outputs.rExp.toNat)
      ∧ (InDomain a b → t.outputs.rExp.toNat ≤ 255 ∨ 0xFFFFFFEA ≤ t.outputs.rExp.toNat))
    ∧ (∃ t n, exec (.fsub a b) s = .next t ∧ t.internal = some n ∧ t.outputs.rMan.toNat ≤ 0x7FFFFF
      ∧ (n.pipe.mag ≠ 0 → t.outputs.rExp.toNat ≤ 256 ∨ 0xFFFFFFE9 ≤ t.outputs.rExp.toNat)
      ∧ (n.pipe.mag ≠ 0 → InDomain a b → t.outputs.rExp.toNat ≤ 255 ∨ 0xFFFFFFEA ≤ t.outputs.rExp.toNat))

/-- SOUNDNESS: in the domain (both exponent fields 1 to 254), when no 1 bit is shifted out by ALIGN or by RENORM and
the result's exponent is 1 to 254 (log 22), the result of FADD denotes exactly the sum of the numbers the operands
denote (R75, R51, R56, R6). Operands outside the domain and results with another exponent are left out, as R74 and R95
ask. -/
def Obligations.FaddIsExactWhenNoBitIsLost : Prop :=
  ∀ (a b : Word) (s : State), InDomain a b → ∃ t n, exec (.fadd a b) s = .next t ∧ t.internal = some n
    ∧ (lostBits (unpack a) n.pipe.ec.toNat = 0 → lostBits (unpack b) n.pipe.ec.toNat = 0 →
        (n.pipe.delta = some 1 → n.pipe.mag.toNat % 2 = 0) → NormalExponent t.outputs.rExp →
        value { sign := t.outputs.rSign, exponent := t.outputs.rExp, mantissa := t.outputs.rMan }
          = value (unpack a) + value (unpack b))

/-- SOUNDNESS: the error of FADD (R75), for operands in the domain (both exponent fields 1 to 254) and a result
exponent of 1 to 254 (log 22). With equal signs the result's magnitude is at most the true sum's, and short of it by
less than two units in the last place of the common exponent; with different signs it is at least the true
difference's, and above it by less than one unit. For exponent gaps of 32 and more it rests on the spec's decision D7
(log 11). -/
def Obligations.FaddErrorIsBounded : Prop :=
  ∀ (a b : Word) (s : State), InDomain a b → ∃ t n, exec (.fadd a b) s = .next t ∧ t.internal = some n
    ∧ (NormalExponent t.outputs.rExp →
        let r := |value { sign := t.outputs.rSign, exponent := t.outputs.rExp, mantissa := t.outputs.rMan }|
        let exact := |value (unpack a) + value (unpack b)|
        ((unpack a).sign = (unpack b).sign → r ≤ exact ∧ exact - r < 2 * ulp n.pipe.ec)
        ∧ ((unpack a).sign ≠ (unpack b).sign → exact ≤ r ∧ r - exact < ulp n.pipe.ec))

/-! ### Subtraction -/

/-- REFINEMENT: FSUB drives on its output ports, for all operand words, the tuple that plain integer arithmetic gives
with the carry of this instance added to the shifted significand; the exact-zero tuple for equal operands, and the
open exponent for a zero difference of unequal ones; eq is 0 (R80 to R83 with R50, R52 to R55). The input ports hold
the triple; the host's list and the stage-level answer are unchanged (the operand wires and the pipeline's signals
change; they are the subject of other statements). It holds for every value of the free values of logs 4 and 5. It
rests on the spec's decisions D6 (log 10), D7 (log 11), D9 (log 4), D13 (log 12), D14 (log 13) and D15 (log 20). -/
def Obligations.FsubDrivesTheIntegerDifference : Prop :=
  ∀ (a b : Word) (s : State), ∃ t, exec (.fsub a b) s = .next t
    ∧ t.outputs = outputsOf (integerSub Config.params (unpack a) (unpack b)) 0
    ∧ t.inputs = { op := 1, a := a, b := b } ∧ t.pending = s.pending ∧ t.stage = s.stage

/-- `a - a` drives the exact-zero tuple for every word, whatever its class (R84 (a)). -/
def Obligations.FsubOfAWordFromItselfIsExactZero : Prop :=
  ∀ (a : Word) (s : State), ∃ t, exec (.fsub a a) s = .next t
    ∧ t.outputs = { rSign := 0, rExp := 0, rMan := 0, rBits := 0, eq := 0 }

/-- The flag of subtraction is raised exactly for equal operand words (R80). -/
def Obligations.FsubFlagsExactlyEqualWords : Prop :=
  ∀ (a b : Word) (s : State), ∃ t n, exec (.fsub a b) s = .next t ∧ t.internal = some n
    ∧ (n.cancel = 1 ↔ a = b)

/-- EQUIVALENCE: subtraction is addition of the negation when every bit ALIGN shifts out is zero (in particular at equal
exponents), and for all at-rest tuples when the instance's carry is the constant 0 (R85). -/
def Obligations.FsubIsFaddOfTheNegation : Prop :=
  (∀ (a b : Word) (s : State),
    lostBits (unpack a) (commonExponent (unpack a) (unpack b)) = 0 →
    lostBits (unpack b) (commonExponent (unpack a) (unpack b)) = 0 →
    ∃ t u, exec (.fsub a b) s = .next t ∧ exec (.fadd a (negWord b)) s = .next u ∧ t.outputs = u.outputs)
  ∧ (∀ (p : OpenParams) (x y : FloatValue), (∀ sig d, p.carry sig d = 0) → AtRest x → AtRest y →
    fsubT p x y = faddT p x (negValue y))

/-- Exchanging the operands of a subtraction flips the sign and nothing else, for unequal words with only zero bits
shifted out (R84 (b)). -/
def Obligations.FsubExchangedFlipsTheSign : Prop :=
  ∀ (a b : Word) (s : State), a ≠ b →
    lostBits (unpack a) (commonExponent (unpack a) (unpack b)) = 0 →
    lostBits (unpack b) (commonExponent (unpack a) (unpack b)) = 0 →
    ∃ t u, exec (.fsub a b) s = .next t ∧ exec (.fsub b a) s = .next u
      ∧ u.outputs.rSign = ~~~t.outputs.rSign ∧ u.outputs.rExp = t.outputs.rExp ∧ u.outputs.rMan = t.outputs.rMan

/-- The one family in which a zero magnitude is not flagged (R54), for every pair of open parameters (their
constraints are log 4's): neighbouring exponents, significands 0x800000 above and 0xFFFFFF below, equal port signs,
and a carry of 1 there; the result is then sign 0, mantissa 0 and the open exponent (log 5). In FADD a zero magnitude
is always flagged (R73). It rests on the spec's decisions D9 (R52 item 5, log 4) and D14 (log 13). -/
def Obligations.UnflaggedZeroMagnitudeIsOneFamily : Prop :=
  ∀ (p : OpenParams) (x y : FloatValue), AtRest x → AtRest y →
    (((subtractionSignals p x y).pipe.mag = 0 ∧ (subtractionSignals p x y).cancel = 0) ↔
      (x.sign = y.sign ∧ p.carry 0xFFFFFF 1 = 1
        ∧ ((x.mantissa = 0 ∧ y.mantissa = 0x7FFFFF ∧ x.exponent.toNat = y.exponent.toNat + 1)
          ∨ (y.mantissa = 0 ∧ x.mantissa = 0x7FFFFF ∧ y.exponent.toNat = x.exponent.toNat + 1))))
    ∧ ((subtractionSignals p x y).pipe.mag = 0 → (subtractionSignals p x y).cancel = 0 →
        fsubT p x y
          = { sign := 0, exponent := p.zeroMagExp (subtractionSignals p x y).pipe.ec, mantissa := 0 })
    ∧ ((additionSignals p x y).pipe.mag = 0 ↔ (additionSignals p x y).cancel = 1)

/-- SOUNDNESS: in the domain (both exponent fields 1 to 254), when no 1 bit is shifted out by ALIGN or by RENORM and
the result's exponent is 1 to 254 (log 22), the result of FSUB denotes exactly the difference of the numbers the
operands denote (R75, R85, R6). That the carry is 0 when only zeros are shifted out is R52 item 5, the spec's decision
D9 (log 4). Operands outside the domain and results with another exponent are left out, as R74 and R95 ask. -/
def Obligations.FsubIsExactWhenNoBitIsLost : Prop :=
  ∀ (a b : Word) (s : State), InDomain a b → ∃ t n, exec (.fsub a b) s = .next t ∧ t.internal = some n
    ∧ (lostBits (unpack a) n.pipe.ec.toNat = 0 → lostBits (unpack b) n.pipe.ec.toNat = 0 →
        (n.pipe.delta = some 1 → n.pipe.mag.toNat % 2 = 0) → NormalExponent t.outputs.rExp →
        value { sign := t.outputs.rSign, exponent := t.outputs.rExp, mantissa := t.outputs.rMan }
          = value (unpack a) - value (unpack b))

/-! ### Equality, copy, the reserved code -/

/-- FEQ drives the three fields and the whole word of port a, and eq is 1 exactly when the two words are equal; the
pipeline's signals do not exist (R89, R88, R16); the host's list and the stage-level answer are unchanged. That FEQ
takes its FloatValue from port a is the spec's decision D15 (log 20). -/
def Obligations.FeqComparesTheWordsAndCopiesTheFirst : Prop :=
  ∀ (a b : Word) (s : State), ∃ t, exec (.feq a b) s = .next t
    ∧ t.outputs.rSign.toNat = a.toNat / 2 ^ 31 ∧ t.outputs.rExp.toNat = a.toNat / 2 ^ 23 % 2 ^ 8
    ∧ t.outputs.rMan.toNat = a.toNat % 2 ^ 23 ∧ t.outputs.rBits = a ∧ (t.outputs.eq = 1 ↔ a = b)
    ∧ t.internal = none ∧ t.inputs = { op := 2, a := a, b := b } ∧ t.pending = s.pending ∧ t.stage = s.stage

/-- FCOPY is FEQ of a word with itself: it always reports equality and copies the word (R38, R90). -/
def Obligations.FcopyCopiesAndReportsEquality : Prop :=
  ∀ (a : Word) (s : State), ∃ t, exec (.fcopy a) s = .next t ∧ exec (.feq a a) s = .next t
    ∧ t.outputs.rBits = a ∧ t.outputs.eq = 1

/-- op 11 drives all five outputs to 0 (the hardware's effect in R36 and R15; that the model takes it is log 6), and
nothing else of the state changes but the inputs and the operand wires. -/
def Obligations.ReservedCodeDrivesZeros : Prop :=
  ∀ (a b : Word) (s : State), ∃ t, exec (.reserved a b) s = .next t
    ∧ t.outputs = { rSign := 0, rExp := 0, rMan := 0, rBits := 0, eq := 0 }
    ∧ t.internal = none ∧ t.inputs = { op := 3, a := a, b := b } ∧ t.pending = s.pending ∧ t.stage = s.stage

/-! ### Frames -/

/-- The frame of the transactions: the triple evaluated stands on the input ports, and the host's list and the
stage-level answer are unchanged (R18, R33, R38). -/
def Obligations.TransactionsChangeOnlyPortsAndWires : Prop :=
  ∀ (i : Instr) (x : Tx) (s t : State), i.tx? = some x → exec i s = .next t →
    t.inputs = x ∧ t.wireA = unpack x.a ∧ t.wireB = unpack x.b ∧ t.pending = s.pending ∧ t.stage = s.stage

/-- The frame of the stage-level evaluations: every port, wire and pending transaction is unchanged; only the answer
changes (R18; the form of a stage-level evaluation is log 7). -/
def Obligations.StageEvaluationsChangeOnlyTheirAnswer : Prop :=
  ∀ (i : Instr) (s t : State), i.tx? = none → exec i s = .next t → t = { s with stage := t.stage }

/-! ### The field codec -/

/-- UNPACK cuts a word into its top bit, the next eight and the low 23, each as an unsigned number (R40). -/
def Obligations.UnpackCutsTheThreeFields : Prop :=
  ∀ (w : Word) (s : State), ∃ f : FloatValue, exec (.unpack w) s = .next { s with stage := .value f }
    ∧ f.sign.toNat = w.toNat / 2 ^ 31 ∧ f.exponent.toNat = w.toNat / 2 ^ 23 % 2 ^ 8
    ∧ f.mantissa.toNat = w.toNat % 2 ^ 23

/-- PACK ORs the fields shifted to their places, nothing masked, bits past bit 31 lost; at rest the fields do not overlap
(R41; the 32-bit truncation is the spec's D8). -/
def Obligations.PackOrsTheShiftedFields : Prop :=
  ∀ (f : FloatValue) (s : State), ∃ w : Word, exec (.pack f) s = .next { s with stage := .word w }
    ∧ w.toNat = (f.sign.toNat * 2 ^ 31) ||| (f.exponent.toNat * 2 ^ 23 % 2 ^ 32) ||| f.mantissa.toNat
    ∧ (AtRest f → w.toNat = f.sign.toNat * 2 ^ 31 + f.exponent.toNat * 2 ^ 23 + f.mantissa.toNat)

/-- The codec's two round trips: packing what UNPACK gives returns every word (R42); unpacking what PACK gives returns the
tuple exactly when it is at rest (R43). -/
def Obligations.CodecRoundTrips : Prop :=
  (∀ (w : Word) (s : State), ∃ f, exec (.unpack w) s = .next { s with stage := .value f }
    ∧ exec (.pack f) s = .next { s with stage := .word w })
  ∧ (∀ (f : FloatValue) (s : State), ∃ w g, exec (.pack f) s = .next { s with stage := .word w }
    ∧ exec (.unpack w) s = .next { s with stage := .value g } ∧ (g = f ↔ AtRest f))

/-! ### Mantissa utilities -/

/-- WITH_IMPLICIT_BIT sets bit 23 and leaves every other bit, the sign and the exponent as they are (R45). -/
def Obligations.WithImplicitBitSetsBit23Only : Prop :=
  ∀ (f : FloatValue) (s : State), ∃ g : FloatValue, exec (.withImplicitBit f) s = .next { s with stage := .value g }
    ∧ g.sign = f.sign ∧ g.exponent = f.exponent
    ∧ (∀ k, k < 32 → g.mantissa.getLsbD k = (decide (k = 23) || f.mantissa.getLsbD k))
    ∧ (AtRest f → g.mantissa.toNat = 2 ^ 23 + f.mantissa.toNat)

/-- BIT_AT reads the bit of the mantissa that the index names (R46); the index has 5 bits (the spec's D12). -/
def Obligations.BitAtReadsTheNamedBit : Prop :=
  ∀ (f : FloatValue) (i : BitVec 5) (s : State), ∃ b : Bit, exec (.bitAt f i) s = .next { s with stage := .bit b }
    ∧ b.toNat = f.mantissa.toNat / 2 ^ i.toNat % 2

/-- FIND_MSB finds the highest set bit at or below the start index and never looks above it (R47, R48); when there is none
it answers found 0 and index 0 (the spec's D11). -/
def Obligations.FindMsbFindsTheHighestSetBit : Prop :=
  ∀ (m : Word) (start : BitVec 5) (s : State), ∃ (found : Bit) (idx : BitVec 5),
    exec (.findMsb m start) s = .next { s with stage := .msb found idx }
    ∧ (m.toNat % 2 ^ (start.toNat + 1) = 0 → found = 0 ∧ idx = 0)
    ∧ (m.toNat % 2 ^ (start.toNat + 1) ≠ 0 → found = 1
        ∧ 2 ^ idx.toNat ≤ m.toNat % 2 ^ (start.toNat + 1) ∧ m.toNat % 2 ^ (start.toNat + 1) < 2 ^ (idx.toNat + 1))

/-! ### Alignment and normalisation -/

/-- ALIGN shifts the significand of the smaller exponent right by the difference, truncating, adds the carry, and passes
the other through; the carry is 0 in FADD and what SUB_CARRY answers in FSUB; at equal exponents nothing moves
(R50). -/
def Obligations.AlignShiftsTheSmallerExponentOnly : Prop :=
  ∀ (xa ea xb eb : Word) (comp : Bit) (s : State), ∃ (ya yb ec d : Word) (c : Bit),
    exec (.align xa ea xb eb comp) s = .next { s with stage := .aligned ya yb ec d c }
    ∧ ec.toNat = max ea.toNat eb.toNat
    ∧ d.toNat = max ea.toNat eb.toNat - min ea.toNat eb.toNat
    ∧ (ea.toNat < eb.toNat → ya.toNat = xa.toNat / 2 ^ d.toNat + c.toNat ∧ yb = xb)
    ∧ (eb.toNat < ea.toNat → ya = xa ∧ yb.toNat = xb.toNat / 2 ^ d.toNat + c.toNat)
    ∧ (ea = eb → ya = xa ∧ yb = xb ∧ c = 0)
    ∧ (comp = 0 → c = 0)
    ∧ (comp = 1 → ea.toNat < eb.toNat → d.toNat ≤ 255 →
        exec (.subCarry (xa.setWidth 24) (d.setWidth 8)) s = .next { s with stage := .bit c })
    ∧ (comp = 1 → eb.toNat < ea.toNat → d.toNat ≤ 255 →
        exec (.subCarry (xb.setWidth 24) (d.setWidth 8)) s = .next { s with stage := .bit c })

/-- What alignment loses in FADD (R51), whichever operand is shifted: the value shifted out is at least 0 and less than one
unit of the common exponent, and nothing when the shifted-out bits are zero; at equal exponents nothing is lost. For
distances of 32 and more it rests on the spec's decision D7 (log 11). -/
def Obligations.AlignLosesLessThanOneUnit : Prop :=
  ∀ (xa ea xb eb : Word) (s : State), ∃ (ya yb ec d : Word),
    exec (.align xa ea xb eb 0) s = .next { s with stage := .aligned ya yb ec d 0 }
    ∧ (ea.toNat < eb.toNat → ec = eb ∧ yb = xb
        ∧ ya.toNat * 2 ^ (ec.toNat - ea.toNat) + xa.toNat % 2 ^ (ec.toNat - ea.toNat) = xa.toNat
        ∧ xa.toNat - ya.toNat * 2 ^ (ec.toNat - ea.toNat) < 2 ^ (ec.toNat - ea.toNat))
    ∧ (eb.toNat < ea.toNat → ec = ea ∧ ya = xa
        ∧ yb.toNat * 2 ^ (ec.toNat - eb.toNat) + xb.toNat % 2 ^ (ec.toNat - eb.toNat) = xb.toNat
        ∧ xb.toNat - yb.toNat * 2 ^ (ec.toNat - eb.toNat) < 2 ^ (ec.toNat - eb.toNat))
    ∧ (ea = eb → ec = ea ∧ ya = xa ∧ yb = xb)

/-- SUB_CARRY is an open decision that depends on the significand and the distance alone and is 0 when every bit
shifted out is 0, so in particular at (0xC00000, 1) (R52 items 3 to 5; item 5 is the spec's D9, log 4). R52 gives it
distances of 1 to 255; that it answers 0 at distance 0 is the model's choice, log 16. It holds for every value of the
free carry. -/
def Obligations.SubCarryIsZeroWhenOnlyZerosAreLost : Prop :=
  (∀ (sig : BitVec 24) (d : BitVec 8), ∃ c : Bit,
    (∀ s : State, exec (.subCarry sig d) s = .next { s with stage := .bit c })
    ∧ (sig.toNat % 2 ^ d.toNat = 0 → c = 0))
  ∧ (∀ s : State, exec (.subCarry 0xC00000 1) s = .next { s with stage := .bit 0 })

/-- RENORM brings the leading bit to position 23 and compensates the exponent by the same distance; a right shift by one
drops the lowest bit, a left shift is exact (R53, R56). A zero magnitude stays zero and is reported as not found, with the
open exponent (R54; it holds for every value of the free value of log 5). -/
def Obligations.RenormNormalisesTheMagnitude : Prop :=
  ∀ (mag ec : Word) (s : State), ∃ (nmag ne : Word) (found : Bit),
    exec (.renorm mag ec) s = .next { s with stage := .renormed nmag ne found }
    ∧ (mag = 0 → nmag = 0 ∧ found = 0 ∧ ne = Config.freeZeroMagExp ec)
    ∧ (0 < mag.toNat → mag.toNat < 2 ^ 25 → found = 1
        ∧ 0x800000 ≤ nmag.toNat ∧ nmag.toNat ≤ 0xFFFFFF
        ∧ ∃ k : Nat, 2 ^ k ≤ mag.toNat ∧ mag.toNat < 2 ^ (k + 1)
          ∧ ne = ec + BitVec.ofInt 32 ((k : Int) - 23)
          ∧ (k ≤ 23 → nmag.toNat = mag.toNat * 2 ^ (23 - k))
          ∧ (k = 24 → nmag.toNat * 2 = mag.toNat - mag.toNat % 2))

/-- STRIP clears bit 23 of a non-zero word and leaves every other bit; zero stays zero (R55). -/
def Obligations.StripClearsBit23Only : Prop :=
  ∀ (nmag : Word) (s : State), ∃ frac : Word, exec (.strip nmag) s = .next { s with stage := .word frac }
    ∧ (∀ k, frac.getLsbD k = (decide (k ≠ 23) && nmag.getLsbD k))
    ∧ (0x800000 ≤ nmag.toNat → nmag.toNat ≤ 0xFFFFFF → frac.toNat = nmag.toNat - 2 ^ 23)

/-! ### The two's-complement adder -/

/-- TC_CONVERT negates the significand of a negative operand modulo 2^32 and passes the other through; a significand of
ASIG reads as the integer `-y` (R60). -/
def Obligations.TcConvertNegatesUnderTheSign : Prop :=
  ∀ (sg : Bit) (y : Word) (s : State), ∃ t : Word, exec (.tcConvert sg y) s = .next { s with stage := .word t }
    ∧ (sg = 0 → t = y) ∧ (sg = 1 → t.toNat = (2 ^ 32 - y.toNat) % 2 ^ 32)
    ∧ (y.toNat ≤ 0xFFFFFF → t.toInt = signFactor sg * y.toNat)

/-- SUM adds modulo 2^32, which never overflows the signed range for converted significands (R61). -/
def Obligations.SumAddsModuloTheWord : Prop :=
  ∀ (ta tb : Word) (s : State), ∃ acc : Word, exec (.sum ta tb) s = .next { s with stage := .word acc }
    ∧ acc.toNat = (ta.toNat + tb.toNat) % 2 ^ 32
    ∧ (ta.toInt.natAbs ≤ 0xFFFFFF → tb.toInt.natAbs ≤ 0xFFFFFF → acc.toInt = ta.toInt + tb.toInt)

/-- SIGN_RECOVER answers bit 31 as the sign and the absolute value as the magnitude (R62); zero is never negative. -/
def Obligations.SignRecoverGivesSignAndMagnitude : Prop :=
  ∀ (acc : Word) (s : State), ∃ (rs : Bit) (mag : Word),
    exec (.signRecover acc) s = .next { s with stage := .signMag rs mag }
    ∧ (rs = 1 ↔ acc.getLsbD 31 = true) ∧ (rs = 1 ↔ acc.toInt < 0) ∧ mag.toNat = acc.toInt.natAbs
    ∧ (acc = 0 → rs = 0 ∧ mag = 0)

/-- The law of the block (R64): converting, adding and recovering gives the sign and the absolute value of the
mathematical sum of the two signed significands, below 2^25. -/
def Obligations.AdderBlockComputesTheSignedSum : Prop :=
  ∀ (sa sb : Bit) (ya yb : Word) (s : State), ya.toNat ≤ 0xFFFFFF → yb.toNat ≤ 0xFFFFFF →
    ∃ (ta tb acc mag : Word) (rs : Bit),
      exec (.tcConvert sa ya) s = .next { s with stage := .word ta }
      ∧ exec (.tcConvert sb yb) s = .next { s with stage := .word tb }
      ∧ exec (.sum ta tb) s = .next { s with stage := .word acc }
      ∧ exec (.signRecover acc) s = .next { s with stage := .signMag rs mag }
      ∧ mag.toNat = (signFactor sa * ya.toNat + signFactor sb * yb.toNat).natAbs
      ∧ (rs = 1 ↔ signFactor sa * ya.toNat + signFactor sb * yb.toNat < 0)
      ∧ mag.toNat ≤ 0x1FFFFFE

/-! ### The top level's stages -/

/-- CANCEL_ADD is raised exactly when the signs differ and the aligned significands are equal (R70). -/
def Obligations.CancelAddComparesAlignedSignificands : Prop :=
  ∀ (sa sb : Bit) (ya yb : Word) (s : State), ∃ c : Bit,
    exec (.cancelAdd sa sb ya yb) s = .next { s with stage := .bit c } ∧ (c = 1 ↔ sa ≠ sb ∧ ya = yb)

/-- CANCEL_SUB is raised for equal signs, exponents and significands; for at-rest operands, exactly for equal tuples
(R80; its place before the pipeline is the spec's D14, log 13). -/
def Obligations.CancelSubComparesTheOperands : Prop :=
  ∀ (x y : FloatValue) (s : State), ∃ c : Bit,
    exec (.cancelSub x y) s = .next { s with stage := .bit c }
    ∧ (c = 1 ↔ x.sign = y.sign ∧ x.exponent = y.exponent ∧ x.mantissa ||| 0x00800000 = y.mantissa ||| 0x00800000)
    ∧ (AtRest x → AtRest y → (c = 1 ↔ x = y))

/-- The sign inversion of subtraction (R81): SIGN_INVERT takes 0 to 1 and 1 to 0; in FSUB the pipeline runs on the second
operand with that sign and nothing else of it changed, in FADD with its own sign; TC_CONVERT uses the effective sign; the
port b is not modified. -/
def Obligations.SignInvertExchangesTheSigns : Prop :=
  (∀ s : State, exec (.signInvert 0) s = .next { s with stage := .bit 1 }
    ∧ exec (.signInvert 1) s = .next { s with stage := .bit 0 })
  ∧ (∀ (a b : Word) (s : State), ∃ t n, exec (.fsub a b) s = .next t ∧ t.internal = some n
    ∧ n.pipe.sbEff = (unpack b).sign ^^^ 1
    ∧ n.pipe = pipe Config.params (unpack a) { unpack b with sign := n.pipe.sbEff } 1
    ∧ n.pipe.tb = tcConvert n.pipe.sbEff n.pipe.yb ∧ t.inputs.b = b ∧ t.wireB = unpack b)
  ∧ (∀ (a b : Word) (s : State), ∃ t n, exec (.fadd a b) s = .next t ∧ t.internal = some n
    ∧ n.pipe.sbEff = (unpack b).sign
    ∧ n.pipe = pipe Config.params (unpack a) { unpack b with sign := n.pipe.sbEff } 0
    ∧ n.pipe.tb = tcConvert n.pipe.sbEff n.pipe.yb ∧ t.inputs.b = b ∧ t.wireB = unpack b)

/-- FINALIZE overrides the result with the exact-zero tuple when cancellation was flagged, unconditionally, and passes it
through otherwise (R72, R94). -/
def Obligations.FinalizeOverridesOnCancellation : Prop :=
  ∀ (rs : Bit) (ne frac : Word) (s : State),
    exec (.finalize 1 rs ne frac) s = .next { s with stage := .value { sign := 0, exponent := 0, mantissa := 0 } }
    ∧ exec (.finalize 0 rs ne frac) s = .next { s with stage := .value { sign := rs, exponent := ne, mantissa := frac } }

/-- PIPE is its stages in the order of R71, each fed by the answers of the ones before it, on at-rest operands. -/
def Obligations.PipeIsItsStagesInOrder : Prop :=
  ∀ (x y : FloatValue) (comp : Bit) (s : State), AtRest x → AtRest y →
    ∃ (x' y' : FloatValue) (ya yb ec d ta tb acc mag nmag ne frac : Word) (c rs found : Bit),
      exec (.withImplicitBit x) s = .next { s with stage := .value x' }
      ∧ exec (.withImplicitBit y) s = .next { s with stage := .value y' }
      ∧ exec (.align x'.mantissa x.exponent y'.mantissa y.exponent comp) s
          = .next { s with stage := .aligned ya yb ec d c }
      ∧ exec (.tcConvert x.sign ya) s = .next { s with stage := .word ta }
      ∧ exec (.tcConvert y.sign yb) s = .next { s with stage := .word tb }
      ∧ exec (.sum ta tb) s = .next { s with stage := .word acc }
      ∧ exec (.signRecover acc) s = .next { s with stage := .signMag rs mag }
      ∧ exec (.renorm mag ec) s = .next { s with stage := .renormed nmag ne found }
      ∧ exec (.strip nmag) s = .next { s with stage := .word frac }
      ∧ exec (.pipe x y comp) s = .next { s with stage := .piped rs ne frac ya yb }

/-- FADD_T and FSUB_T answer, on at-rest tuples, what plain integer arithmetic gives (R73, R82). It holds for every value
of the free values. -/
def Obligations.TupleAdditionAndSubtractionAreIntegerArithmetic : Prop :=
  ∀ (x y : FloatValue) (s : State), AtRest x → AtRest y →
    exec (.faddT x y) s = .next { s with stage := .value (integerAdd x y) }
    ∧ exec (.fsubT x y) s = .next { s with stage := .value (integerSub Config.params x y) }

/-- PIPE, FADD_T and FSUB_T refuse operands that are not at rest, and only those (R71 with the spec's D22, log 9). -/
def Obligations.TupleOperationsRefuseExactlyOperandsNotAtRest : Prop :=
  ∀ (x y : FloatValue) (comp : Bit) (s : State),
    (exec (.pipe x y comp) s = .refused .operandNotAtRest ↔ ¬ (AtRest x ∧ AtRest y))
    ∧ (exec (.faddT x y) s = .refused .operandNotAtRest ↔ ¬ (AtRest x ∧ AtRest y))
    ∧ (exec (.fsubT x y) s = .refused .operandNotAtRest ↔ ¬ (AtRest x ∧ AtRest y))

/-- EQUALS compares all three fields over their full widths: it is 1 exactly when the tuple is UNPACK of the word; a tuple
with an exponent above 255 equals no word, and an at-rest tuple equals exactly the word it packs to (R88). -/
def Obligations.EqualsComparesAllThreeFields : Prop :=
  ∀ (f : FloatValue) (n : Word) (s : State), ∃ q : Bit,
    exec (.equals f n) s = .next { s with stage := .bit q }
    ∧ (q = 1 ↔ f.sign.toNat = n.toNat / 2 ^ 31 ∧ f.exponent.toNat = n.toNat / 2 ^ 23 % 2 ^ 8
        ∧ f.mantissa.toNat = n.toNat % 2 ^ 23)
    ∧ (255 < f.exponent.toNat → q = 0)
    ∧ (AtRest f → (q = 1 ↔ exec (.pack f) s = .next { s with stage := .word n }))

/-- The wires FADD and FSUB drive are what the stages answer on them (R17, column "produced by"; R82 for the effective
sign): ALIGN, SIGN_RECOVER, RENORM and STRIP, and FINALIZE for the result ports. -/
def Obligations.TransactionWiresAreTheStagesAnswers : Prop :=
  ∀ (a b : Word) (s u : State) (i : Instr) (comp : Bit),
    (i = .fadd a b ∧ comp = 0 ∨ i = .fsub a b ∧ comp = 1) →
    ∃ t n, exec i s = .next t ∧ t.internal = some n
      ∧ n.pipe.sbEff = (unpack b).sign ^^^ comp
      ∧ n.pipe.xa.toNat = 2 ^ 23 + a.toNat % 2 ^ 23 ∧ n.pipe.xb.toNat = 2 ^ 23 + b.toNat % 2 ^ 23
      ∧ exec (.align n.pipe.xa t.wireA.exponent n.pipe.xb t.wireB.exponent comp) u
          = .next { u with stage := .aligned n.pipe.ya n.pipe.yb n.pipe.ec n.pipe.d n.pipe.c }
      ∧ exec (.tcConvert t.wireA.sign n.pipe.ya) u = .next { u with stage := .word n.pipe.ta }
      ∧ exec (.tcConvert n.pipe.sbEff n.pipe.yb) u = .next { u with stage := .word n.pipe.tb }
      ∧ exec (.sum n.pipe.ta n.pipe.tb) u = .next { u with stage := .word n.pipe.acc }
      ∧ exec (.signRecover n.pipe.acc) u = .next { u with stage := .signMag n.pipe.rs n.pipe.mag }
      ∧ exec (.findMsb n.pipe.mag 24) u = .next { u with stage := .msb n.pipe.found n.pipe.idx }
      ∧ exec (.renorm n.pipe.mag n.pipe.ec) u
          = .next { u with stage := .renormed n.pipe.nmag n.pipe.ne n.pipe.found }
      ∧ exec (.strip n.pipe.nmag) u = .next { u with stage := .word n.pipe.frac }
      ∧ exec (.finalize n.cancel n.pipe.rs n.pipe.ne n.pipe.frac) u
          = .next { u with
              stage := .value { sign := t.outputs.rSign, exponent := t.outputs.rExp, mantissa := t.outputs.rMan } }
end

