-- ==== Sys2Proof/Laws/Word.lean ====
section
/-! SUPPORT. The word operations as arithmetic on numbers (R63). -/

namespace Sys2Proof.Machine

/-- A 1-bit value is 0 or 1. -/
theorem bit_cases (b : Bit) : b = 0 ∨ b = 1 := by
  revert b; decide

theorem bit_ne_one {b : Bit} : b ≠ 1 ↔ b = 0 := by
  revert b; decide

theorem bit_toNat_le (b : Bit) : b.toNat ≤ 1 := by
  revert b; decide

@[simp] theorem Bit.of_eq_one (p : Prop) [Decidable p] : Bit.of p = 1 ↔ p := by
  unfold Bit.of; split <;> simp_all

@[simp] theorem Bit.of_eq_zero (p : Prop) [Decidable p] : Bit.of p = 0 ↔ ¬ p := by
  unfold Bit.of; split <;> simp_all

@[simp] theorem shr32_toNat (w : Word) (d : Nat) : (shr32 w d).toNat = w.toNat / 2 ^ d := by
  simp [shr32, BitVec.toNat_ushiftRight, Nat.shiftRight_eq_div_pow]

@[simp] theorem shl32_toNat (w : Word) (d : Nat) : (shl32 w d).toNat = w.toNat * 2 ^ d % 2 ^ 32 := by
  simp [shl32, BitVec.toNat_shiftLeft, Nat.shiftLeft_eq]

@[simp] theorem zextBit_toNat (b : Bit) : (zextBit b).toNat = b.toNat := by
  have := bit_toNat_le b
  simp only [zextBit, BitVec.toNat_setWidth]
  omega

theorem neg32_eq_neg (w : Word) : neg32 w = -w := by
  simp [neg32, BitVec.neg_eq_not_add]

theorem signFactor_zero : signFactor 0 = 1 := rfl

theorem signFactor_one : signFactor 1 = -1 := rfl

theorem signFactor_signInvert (b : Bit) : signFactor (signInvert b) = -signFactor b := by
  revert b; decide

end Sys2Proof.Machine
end

