-- ==== Sys2Proof/Laws/Adder.lean ====
section
/-! SUPPORT. The two's-complement adder as integer arithmetic (R60 to R64). -/

namespace Sys2Proof.Machine

/-- A converted significand reads as the signed integer (R60). -/
theorem tcConvert_toInt (s : Bit) {y : Word} (h : y.toNat ≤ 0xFFFFFF) :
    (tcConvert s y).toInt = signFactor s * y.toNat := by
  rcases bit_cases s with rfl | rfl
  · simp only [tcConvert, signFactor]
    rw [if_neg (by decide), if_neg (by decide), BitVec.toInt_eq_toNat_of_lt (by omega)]
    omega
  · simp only [tcConvert, signFactor, if_true, neg32_eq_neg]
    rw [BitVec.toInt_neg, BitVec.toInt_eq_toNat_of_lt (by omega)]
    simp only [Int.bmod]
    omega

/-- The accumulator holds the integer sum exactly, for operands in the unit's range (R61). -/
theorem sum_toInt {ta tb : Word} (ha : ta.toInt.natAbs ≤ 0xFFFFFF) (hb : tb.toInt.natAbs ≤ 0xFFFFFF) :
    (sum ta tb).toInt = ta.toInt + tb.toInt := by
  simp only [sum, BitVec.toInt_add, Int.bmod]
  omega

/-- Bit 31 is the sign (R62). -/
theorem getLsbD_31_iff (w : Word) : w.getLsbD 31 = true ↔ w.toInt < 0 := by
  have := w.isLt
  rw [← BitVec.msb_eq_getLsbD_last, BitVec.msb_eq_toInt, decide_eq_true_iff]

/-- SIGN_RECOVER answers the sign and the absolute value (R62). -/
theorem signRecover_spec (acc : Word) :
    ((signRecover acc).rs = 1 ↔ acc.toInt < 0) ∧ (signRecover acc).mag.toNat = acc.toInt.natAbs := by
  have hlt := acc.isLt
  unfold signRecover
  by_cases h : acc.getLsbD 31 = true
  · rw [if_pos h]
    have hn := (getLsbD_31_iff acc).1 h
    refine ⟨by simpa using hn, ?_⟩
    simp only [neg32_eq_neg, BitVec.toNat_neg]
    rw [BitVec.toInt_eq_toNat_cond] at hn ⊢
    split at hn <;> omega
  · rw [if_neg h]
    have hn := mt (getLsbD_31_iff acc).2 h
    refine ⟨⟨fun h1 => absurd h1 (by simp), fun h1 => absurd h1 hn⟩, ?_⟩
    simp only
    rw [BitVec.toInt_eq_toNat_cond] at hn ⊢
    split at hn <;> omega

/-- The law of the block (R64): sign and absolute value of the signed sum of two aligned significands. -/
theorem adder_spec (sa sb : Bit) {ya yb : Word} (ha : ya.toNat ≤ 0xFFFFFF) (hb : yb.toNat ≤ 0xFFFFFF) :
    let v := signFactor sa * ya.toNat + signFactor sb * yb.toNat
    let r := signRecover (sum (tcConvert sa ya) (tcConvert sb yb))
    (r.rs = 1 ↔ v < 0) ∧ r.mag.toNat = v.natAbs ∧ r.mag.toNat ≤ 0x1FFFFFE := by
  intro v r
  have h1 := tcConvert_toInt sa ha
  have h2 := tcConvert_toInt sb hb
  have b1 : (tcConvert sa ya).toInt.natAbs ≤ 0xFFFFFF := by
    rw [h1]; rcases bit_cases sa with rfl | rfl <;> simp only [signFactor_zero, signFactor_one] <;> omega
  have b2 : (tcConvert sb yb).toInt.natAbs ≤ 0xFFFFFF := by
    rw [h2]; rcases bit_cases sb with rfl | rfl <;> simp only [signFactor_zero, signFactor_one] <;> omega
  have hs : (sum (tcConvert sa ya) (tcConvert sb yb)).toInt = v := by rw [sum_toInt b1 b2, h1, h2]
  have hr := signRecover_spec (sum (tcConvert sa ya) (tcConvert sb yb))
  rw [hs] at hr
  refine ⟨hr.1, hr.2, ?_⟩
  rw [hr.2, ← hs, sum_toInt b1 b2]
  omega

end Sys2Proof.Machine
end

