-- ==== Sys2Proof/Laws/Codec.lean ====
section
/-! SUPPORT. The field codec as arithmetic on numbers (R40 to R43), and the implicit bit (R45). -/

namespace Sys2Proof.Machine

theorem FloatValue.ext_toNat {f g : FloatValue} (hs : f.sign = g.sign) (he : f.exponent.toNat = g.exponent.toNat)
    (hm : f.mantissa.toNat = g.mantissa.toNat) : f = g := by
  cases f; cases g
  simp only [FloatValue.mk.injEq]
  exact ⟨hs, BitVec.eq_of_toNat_eq he, BitVec.eq_of_toNat_eq hm⟩

theorem unpack_sign_toNat (w : Word) : (unpack w).sign.toNat = w.toNat / 2 ^ 31 := by
  have := w.isLt
  simp only [unpack, BitVec.extractLsb'_toNat, Nat.shiftRight_eq_div_pow]
  omega

theorem unpack_exponent_toNat (w : Word) : (unpack w).exponent.toNat = w.toNat / 2 ^ 23 % 2 ^ 8 := by
  simp only [unpack, BitVec.toNat_setWidth, BitVec.extractLsb'_toNat, Nat.shiftRight_eq_div_pow]
  omega

theorem unpack_mantissa_toNat (w : Word) : (unpack w).mantissa.toNat = w.toNat % 2 ^ 23 := by
  simp only [unpack, BitVec.toNat_setWidth, BitVec.extractLsb'_toNat, Nat.shiftRight_eq_div_pow]
  omega

/-- What UNPACK gives is at rest (R14, R40). -/
theorem atRest_unpack (w : Word) : AtRest (unpack w) := by
  constructor
  · rw [unpack_exponent_toNat]; omega
  · rw [unpack_mantissa_toNat]; omega

theorem atRest_eq_true (f : FloatValue) : atRest f = true ↔ AtRest f := by
  simp [atRest, AtRest]

theorem atRest_negValue {f : FloatValue} (h : AtRest f) : AtRest (negValue f) := h

/-- A word is the concatenation of its three fields. -/
theorem word_toNat_of_unpack (w : Word) : w.toNat =
    (unpack w).sign.toNat * 2 ^ 31 + (unpack w).exponent.toNat * 2 ^ 23 + (unpack w).mantissa.toNat := by
  rw [unpack_sign_toNat, unpack_exponent_toNat, unpack_mantissa_toNat]
  omega

theorem unpack_injective {a b : Word} (h : unpack a = unpack b) : a = b := by
  apply BitVec.eq_of_toNat_eq
  rw [word_toNat_of_unpack a, word_toNat_of_unpack b, h]

theorem unpack_inj {a b : Word} : unpack a = unpack b ↔ a = b := ⟨unpack_injective, fun h => h ▸ rfl⟩

/-- PACK as an unmasked OR of numbers (R41). -/
theorem pack_toNat (f : FloatValue) : (pack f).toNat =
    f.sign.toNat * 2 ^ 31 ||| f.exponent.toNat * 2 ^ 23 % 2 ^ 32 ||| f.mantissa.toNat := by
  have := bit_toNat_le f.sign
  simp only [pack, BitVec.toNat_or, shl32_toNat, zextBit_toNat]
  rw [Nat.mod_eq_of_lt (a := f.sign.toNat * 2 ^ 31) (by omega)]

/-- PACK of an at-rest tuple is the concatenation of its fields (R41, case (a)). -/
theorem pack_toNat_of_atRest {f : FloatValue} (h : AtRest f) : (pack f).toNat =
    f.sign.toNat * 2 ^ 31 + f.exponent.toNat * 2 ^ 23 + f.mantissa.toNat := by
  have hs := bit_toNat_le f.sign
  obtain ⟨he, hm⟩ := h
  have e0 : f.exponent.toNat * 2 ^ 23 % 2 ^ 32 = f.exponent.toNat * 2 ^ 23 := Nat.mod_eq_of_lt (by omega)
  have h1 : f.sign.toNat * 2 ^ 31 ||| f.exponent.toNat * 2 ^ 23 =
      f.sign.toNat * 2 ^ 31 + f.exponent.toNat * 2 ^ 23 := by
    have := Nat.two_pow_add_eq_or_of_lt (i := 31) (b := f.exponent.toNat * 2 ^ 23) (by omega) f.sign.toNat
    rw [Nat.mul_comm (2 ^ 31)] at this
    exact this.symm
  have h2 : (f.sign.toNat * 2 ^ 31 + f.exponent.toNat * 2 ^ 23) ||| f.mantissa.toNat =
      (f.sign.toNat * 2 ^ 31 + f.exponent.toNat * 2 ^ 23) + f.mantissa.toNat := by
    have := Nat.two_pow_add_eq_or_of_lt (i := 23) (b := f.mantissa.toNat) (by omega)
      (f.sign.toNat * 2 ^ 8 + f.exponent.toNat)
    rw [show 2 ^ 23 * (f.sign.toNat * 2 ^ 8 + f.exponent.toNat) =
      f.sign.toNat * 2 ^ 31 + f.exponent.toNat * 2 ^ 23 by ring] at this
    exact this.symm
  rw [pack_toNat, e0, h1, h2]

/-- Round trip from the word side (R42). -/
theorem pack_unpack (w : Word) : pack (unpack w) = w := by
  apply BitVec.eq_of_toNat_eq
  rw [pack_toNat_of_atRest (atRest_unpack w), ← word_toNat_of_unpack]

/-- Round trip from the tuple side, for at-rest tuples (R43). -/
theorem unpack_pack {f : FloatValue} (h : AtRest f) : unpack (pack f) = f := by
  have hw := pack_toNat_of_atRest h
  have hs := bit_toNat_le f.sign
  obtain ⟨he, hm⟩ := h
  apply FloatValue.ext_toNat
  · apply BitVec.eq_of_toNat_eq
    rw [unpack_sign_toNat, hw]; omega
  · rw [unpack_exponent_toNat, hw]; omega
  · rw [unpack_mantissa_toNat, hw]; omega

/-- Flipping the top bit of a word inverts the sign of its tuple (R38, R76). -/
theorem unpack_negWord (a : Word) : unpack (negWord a) = negValue (unpack a) := by
  have hx : (negWord a).toNat = a.toNat ^^^ 2 ^ 31 := by simp [negWord]
  have key : (negWord a).toNat = if a.toNat < 2 ^ 31 then a.toNat + 2 ^ 31 else a.toNat - 2 ^ 31 := by
    have hlt := a.isLt
    have hdiv : (a.toNat ^^^ 2 ^ 31) / 2 ^ 31 = a.toNat / 2 ^ 31 ^^^ 1 := by
      rw [Nat.xor_div_two_pow, Nat.div_self (by norm_num)]
    have hmod : (a.toNat ^^^ 2 ^ 31) % 2 ^ 31 = a.toNat % 2 ^ 31 := by
      rw [Nat.xor_mod_two_pow]; simp
    have hq : a.toNat / 2 ^ 31 = 0 ∨ a.toNat / 2 ^ 31 = 1 := by omega
    rw [hx]
    generalize a.toNat ^^^ 2 ^ 31 = x at hdiv hmod
    rcases hq with hq | hq <;> rw [hq] at hdiv
    · rw [show (0 ^^^ 1 : Nat) = 1 from rfl] at hdiv; split <;> omega
    · rw [show (1 ^^^ 1 : Nat) = 0 from rfl] at hdiv; split <;> omega
  have hlt := a.isLt
  apply FloatValue.ext_toNat
  · have hu := unpack_sign_toNat a
    have hn := unpack_sign_toNat (negWord a)
    rw [key] at hn
    rcases bit_cases (unpack a).sign with h0 | h0 <;> rcases bit_cases (unpack (negWord a)).sign with h1 | h1 <;>
      rw [h0] at hu <;> rw [h1] at hn <;> simp only [negValue, h0, h1] <;> simp at hu hn <;>
      first | rfl | (exfalso; split at hn <;> omega)
  · show _ = (unpack a).exponent.toNat
    rw [unpack_exponent_toNat, unpack_exponent_toNat, key]; split <;> omega
  · show _ = (unpack a).mantissa.toNat
    rw [unpack_mantissa_toNat, unpack_mantissa_toNat, key]; split <;> omega

theorem negWord_negWord (a : Word) : negWord (negWord a) = a := by
  simp [negWord]

/-- The significand of an at-rest tuple, as WITH_IMPLICIT_BIT drives it (R45). -/
theorem implicit_toNat {f : FloatValue} (h : AtRest f) :
    (f.mantissa ||| 0x00800000 : Word).toNat = significand f := by
  have := Nat.two_pow_add_eq_or_of_lt (i := 23) (b := f.mantissa.toNat) (by omega) 1
  simp only [BitVec.toNat_or, significand, Config.implicitBit]
  rw [Nat.or_comm]
  simpa using this.symm

theorem significand_bounds {f : FloatValue} (h : AtRest f) : 0x800000 ≤ significand f ∧ significand f ≤ 0xFFFFFF := by
  obtain ⟨_, hm⟩ := h
  simp only [significand, Config.implicitBit]
  omega

end Sys2Proof.Machine
end

