-- ==== Sys2Proof/Laws/Mantissa.lean ====
section
/-! SUPPORT. The search for the most significant bit (R46 to R48). -/

namespace Sys2Proof.Machine

/-- BIT_AT as arithmetic (R46). -/
theorem bitAt_toNat (f : FloatValue) (i : BitVec 5) : (bitAt f i).toNat = f.mantissa.toNat / 2 ^ i.toNat % 2 := by
  simp [bitAt]

theorem bitAt_eq_one (f : FloatValue) (i : BitVec 5) : bitAt f i = 1 ↔ f.mantissa.toNat / 2 ^ i.toNat % 2 = 1 := by
  rw [← bitAt_toNat]
  exact ⟨fun h => by rw [h]; rfl, fun h => BitVec.eq_of_toNat_eq (by rw [h]; rfl)⟩

/-- What the scan from index `i` down can answer: nothing, when no bit at or below `i` is set, or the highest such
bit. -/
theorem scanMsb_spec (m : Word) : ∀ i : Nat, i < 32 →
    (m.toNat % 2 ^ (i + 1) = 0 → scanMsb m i = { found := 0, idx := 0 })
    ∧ (m.toNat % 2 ^ (i + 1) ≠ 0 → ∃ k, k ≤ i ∧ scanMsb m i = { found := 1, idx := BitVec.ofNat 5 k }
        ∧ 2 ^ k ≤ m.toNat % 2 ^ (i + 1) ∧ m.toNat % 2 ^ (i + 1) < 2 ^ (k + 1)) := by
  intro i
  induction i with
  | zero =>
    intro _
    constructor
    · intro h
      have hb : ¬ bitAt { sign := 0, exponent := 0, mantissa := m } 0 = 1 := by
        rw [bitAt_eq_one]; simp at h ⊢; omega
      simp only [scanMsb, hb, if_false]
    · intro h
      have hb : bitAt { sign := 0, exponent := 0, mantissa := m } 0 = 1 := by
        rw [bitAt_eq_one]; simp at h ⊢; omega
      refine ⟨0, le_refl 0, ?_, ?_, ?_⟩
      · simp only [scanMsb, hb, if_true]; rfl
      · simp at h ⊢; omega
      · simp at h ⊢; omega
  | succ i ih =>
    intro hi
    have ihs := ih (by omega)
    have hidx : (BitVec.ofNat 5 (i + 1)).toNat = i + 1 := by
      rw [BitVec.toNat_ofNat, Nat.mod_eq_of_lt]; omega
    have hsplit : m.toNat % 2 ^ (i + 1 + 1) = m.toNat % 2 ^ (i + 1) + 2 ^ (i + 1) * (m.toNat / 2 ^ (i + 1) % 2) := by
      rw [pow_succ 2 (i + 1), Nat.mod_mul]
    have hlt : m.toNat % 2 ^ (i + 1) < 2 ^ (i + 1) := Nat.mod_lt _ (by positivity)
    rcases Nat.mod_two_eq_zero_or_one (m.toNat / 2 ^ (i + 1)) with hb | hb
    · have hne : ¬ bitAt { sign := 0, exponent := 0, mantissa := m } (BitVec.ofNat 5 (i + 1)) = 1 := by
        rw [bitAt_eq_one, hidx]; simp only; omega
      have hstep : scanMsb m (i + 1) = scanMsb m i := by simp only [scanMsb, hne, if_false]
      rw [hb, Nat.mul_zero, Nat.add_zero] at hsplit
      rw [hstep, hsplit]
      exact ⟨ihs.1, fun h => by
        obtain ⟨k, hk, h1, h2, h3⟩ := ihs.2 h
        exact ⟨k, by omega, h1, h2, h3⟩⟩
    · have heq : bitAt { sign := 0, exponent := 0, mantissa := m } (BitVec.ofNat 5 (i + 1)) = 1 := by
        rw [bitAt_eq_one, hidx]; exact hb
      have hpos : 0 < 2 ^ (i + 1) := by positivity
      rw [hb, Nat.mul_one] at hsplit
      rw [hsplit]
      refine ⟨fun h => by omega, fun _ => ⟨i + 1, le_refl _, ?_, by omega, ?_⟩⟩
      · simp only [scanMsb, heq, if_true]
      · rw [pow_succ 2 (i + 1)]; omega

/-- What the unit's search answers on a magnitude below 2^25 (R48): the position of its leading bit, or nothing for
zero. -/
theorem findMsb_of_lt {m : Word} (h : m.toNat < 2 ^ 25) :
    (m = 0 ∧ findMsb m Config.msbStart = { found := 0, idx := 0 })
    ∨ (0 < m.toNat ∧ m.toNat.log2 ≤ 24
        ∧ findMsb m Config.msbStart = { found := 1, idx := BitVec.ofNat 5 m.toNat.log2 }) := by
  have hs := scanMsb_spec m 24 (by omega)
  have hm : m.toNat % 2 ^ (24 + 1) = m.toNat := Nat.mod_eq_of_lt h
  rw [hm] at hs
  by_cases h0 : m.toNat = 0
  · exact .inl ⟨BitVec.eq_of_toNat_eq h0, hs.1 h0⟩
  · obtain ⟨k, hk, hf, hlo, hhi⟩ := hs.2 h0
    have hlog : m.toNat.log2 = k := by
      rw [Nat.log2_eq_iff h0]; exact ⟨hlo, hhi⟩
    exact .inr ⟨by omega, by omega, by rw [hlog]; exact hf⟩

end Sys2Proof.Machine
end

