-- ==== Sys2Proof/Laws/AlignNormalize.lean ====
section
/-! SUPPORT. Alignment and normalisation as integer arithmetic (R50 to R56). -/

namespace Sys2Proof.Machine

/-- The carry ALIGN adds is 0 in FADD (R50, R52 item 1). -/
@[simp] theorem alignCarry_add (p : OpenParams) (x d : Word) : alignCarry p x d 0 = 0 := by
  simp [alignCarry]

@[simp] theorem alignCarry_sub (p : OpenParams) (x d : Word) :
    alignCarry p x d 1 = subCarry p (x.setWidth 24) d.toNat := by
  simp [alignCarry]

/-- SUB_CARRY is 0 when every shifted-out bit is 0 (R52 item 5). -/
theorem subCarry_of_lossless (p : OpenParams) {sig : BitVec 24} {d : Nat} (h : sig.toNat % 2 ^ d = 0) :
    subCarry p sig d = 0 := by
  simp [subCarry, h]

theorem subCarry_of_lossy (p : OpenParams) {sig : BitVec 24} {d : Nat} (h : sig.toNat % 2 ^ d ≠ 0) :
    subCarry p sig d = p.carry sig d := by
  simp [subCarry, h]

/-- Everything ALIGN can answer: which operand moved, by how much, and what the moved significand became (R50). -/
theorem align_cases (p : OpenParams) (xa ea xb eb : Word) (comp : Bit) :
    let r := align p xa ea xb eb comp
    (ea.toNat < eb.toNat ∧ r.ec = eb ∧ r.d.toNat = eb.toNat - ea.toNat ∧ r.yb = xb
        ∧ r.c = alignCarry p xa r.d comp ∧ r.ya.toNat = xa.toNat / 2 ^ (eb.toNat - ea.toNat) + r.c.toNat)
    ∨ (eb.toNat < ea.toNat ∧ r.ec = ea ∧ r.d.toNat = ea.toNat - eb.toNat ∧ r.ya = xa
        ∧ r.c = alignCarry p xb r.d comp ∧ r.yb.toNat = xb.toNat / 2 ^ (ea.toNat - eb.toNat) + r.c.toNat)
    ∨ (ea = eb ∧ r.ec = ea ∧ r.d = 0 ∧ r.ya = xa ∧ r.yb = xb ∧ r.c = 0) := by
  have shifted : ∀ (x : Word) (d : Nat) (c : Bit), 1 ≤ d →
      (shr32 x d + zextBit c).toNat = x.toNat / 2 ^ d + c.toNat := by
    intro x d c hd
    have hx := x.isLt
    have hc := bit_toNat_le c
    have h2 : 2 ≤ 2 ^ d := by
      calc 2 = 2 ^ 1 := rfl
        _ ≤ 2 ^ d := Nat.pow_le_pow_right (by omega) hd
    have hq : x.toNat / 2 ^ d ≤ x.toNat / 2 := Nat.div_le_div_left h2 (by omega)
    rw [BitVec.toNat_add, shr32_toNat, zextBit_toNat, Nat.mod_eq_of_lt]
    omega
  by_cases h1 : ea < eb
  · have hlt : ea.toNat < eb.toNat := h1
    have hd : (eb - ea).toNat = eb.toNat - ea.toNat := BitVec.toNat_sub_of_le (BitVec.le_of_lt h1)
    left
    simp only [align, if_pos h1]
    refine ⟨hlt, trivial, hd, trivial, trivial, ?_⟩
    rw [shifted _ _ _ (by omega), hd]
  · by_cases h2 : eb < ea
    · have hlt : eb.toNat < ea.toNat := h2
      have hd : (ea - eb).toNat = ea.toNat - eb.toNat := BitVec.toNat_sub_of_le (BitVec.le_of_lt h2)
      right; left
      simp only [align, if_neg h1, if_pos h2]
      refine ⟨hlt, trivial, hd, trivial, trivial, ?_⟩
      rw [shifted _ _ _ (by omega), hd]
    · right; right
      have he : ea = eb := by
        apply BitVec.eq_of_toNat_eq
        simp only [BitVec.lt_def] at h1 h2
        omega
      simp only [align, if_neg h1, if_neg h2]
      exact ⟨he, trivial, trivial, trivial, trivial, trivial⟩

/-- RENORM of a zero magnitude (R54). -/
theorem renorm_zero (p : OpenParams) (ec : Word) : renorm p 0 ec =
    { nmag := 0, ne := p.zeroMagExp ec, found := 0, idx := 0, delta := none } := by
  rcases findMsb_of_lt (m := 0) (by decide) with ⟨_, hf⟩ | ⟨h, _⟩
  · simp only [renorm, hf, if_true]
  · exact absurd h (by decide)

/-- The signals `found` and `idx` of RENORM are the search's answer (R53, R47). -/
theorem renorm_msb (p : OpenParams) (mag ec : Word) :
    (renorm p mag ec).found = (findMsb mag Config.msbStart).found
      ∧ (renorm p mag ec).idx = (findMsb mag Config.msbStart).idx := by
  simp only [renorm]
  split <;> [skip; split <;> [skip; split]] <;> exact ⟨rfl, rfl⟩

/-- RENORM when the search found position `k` (R53): the three directions of the shift, said as one. -/
theorem renorm_of_found (p : OpenParams) (mag ec : Word) {k : Nat} (hk : k ≤ 24)
    (hf : findMsb mag Config.msbStart = { found := 1, idx := BitVec.ofNat 5 k }) :
    let r := renorm p mag ec
    r.found = 1 ∧ r.idx = BitVec.ofNat 5 k ∧ r.delta = some ((k : Int) - 23)
      ∧ r.ne = ec + BitVec.ofInt 32 ((k : Int) - 23)
      ∧ ((if k ≤ 23 then mag.toNat * 2 ^ (23 - k) else mag.toNat / 2) < 2 ^ 32 →
          r.nmag.toNat = if k ≤ 23 then mag.toNat * 2 ^ (23 - k) else mag.toNat / 2) := by
  have hidx : (BitVec.ofNat 5 k).toNat = k := by rw [BitVec.toNat_ofNat, Nat.mod_eq_of_lt]; omega
  have h10 : ¬ ((1 : Bit) = 0) := by decide
  simp only [renorm, hf, if_neg h10, hidx, Config.implicitBit]
  rcases Nat.lt_trichotomy k 23 with h | rfl | h
  · have hp : ¬ ((k : Int) - (23 : Nat) > 0) := by omega
    have hn : (k : Int) - (23 : Nat) < 0 := by omega
    have ht : (-((k : Int) - (23 : Nat))).toNat = 23 - k := by omega
    have hz : (k : Int) - 23 = -((23 - k : Nat) : Int) := by omega
    rw [if_neg hp, if_pos hn, if_pos (by omega : k ≤ 23), ht]
    refine ⟨rfl, rfl, rfl, ?_, ?_⟩
    · rw [hz, BitVec.ofInt_neg, BitVec.ofInt_natCast, BitVec.sub_eq_add_neg]
    · intro hlt
      rw [shl32_toNat, Nat.mod_eq_of_lt hlt]
  · simp
  · obtain rfl : k = 24 := by omega
    simp

/-- RENORM of a non-zero magnitude of the unit (R53, R56): its leading bit, at position k, goes to position 23 and the
exponent is compensated by the same distance. -/
theorem renorm_of_pos (p : OpenParams) {mag : Word} (ec : Word) (h0 : 0 < mag.toNat) (h : mag.toNat < 2 ^ 25) :
    let k := mag.toNat.log2
    let r := renorm p mag ec
    k ≤ 24 ∧ r.found = 1 ∧ r.idx = BitVec.ofNat 5 k ∧ r.delta = some ((k : Int) - 23)
    ∧ r.ne = ec + BitVec.ofInt 32 ((k : Int) - 23) ∧ r.nmag.toNat = mag.toNat * 2 ^ 23 / 2 ^ k
    ∧ 2 ^ 23 ≤ r.nmag.toNat ∧ r.nmag.toNat < 2 ^ 24 := by
  intro k r
  have hne : mag.toNat ≠ 0 := by omega
  obtain ⟨hlo, hhi⟩ := (Nat.log2_eq_iff hne).1 (rfl : mag.toNat.log2 = k)
  rcases findMsb_of_lt h with ⟨hz, _⟩ | ⟨_, hk, hf⟩
  · rw [hz] at h0; exact absurd h0 (by decide)
  have hk' : k ≤ 24 := hk
  have hval : mag.toNat * 2 ^ 23 / 2 ^ k = if k ≤ 23 then mag.toNat * 2 ^ (23 - k) else mag.toNat / 2 := by
    split
    next hle =>
      rw [show (2 : Nat) ^ 23 = 2 ^ (23 - k) * 2 ^ k by rw [← pow_add]; congr 1; omega, ← Nat.mul_assoc,
        Nat.mul_div_cancel _ (by positivity)]
    next hgt =>
      have : k = 24 := by omega
      rw [this]; omega
  have hrange : 2 ^ 23 ≤ mag.toNat * 2 ^ 23 / 2 ^ k ∧ mag.toNat * 2 ^ 23 / 2 ^ k < 2 ^ 24 := by
    constructor
    · rw [Nat.le_div_iff_mul_le (by positivity), Nat.mul_comm]; exact Nat.mul_le_mul_right _ hlo
    · rw [Nat.div_lt_iff_lt_mul (by positivity)]
      have : 2 ^ 24 * 2 ^ k = 2 ^ (k + 1) * 2 ^ 23 := by rw [pow_succ]; ring
      rw [this]; exact Nat.mul_lt_mul_of_pos_right hhi (by positivity)
  obtain ⟨c1, c2, c3, c4, c5⟩ := renorm_of_found p mag ec hk' hf
  rw [← hval] at c5
  have c6 := c5 (by omega)
  exact ⟨hk', c1, c2, c3, c4, c6, c6 ▸ hrange.1, c6 ▸ hrange.2⟩

/-- STRIP of a normalised magnitude removes the leading bit (R55). -/
theorem strip_toNat {n : Word} (h1 : 2 ^ 23 ≤ n.toNat) (h2 : n.toNat < 2 ^ 24) : (strip n).toNat = n.toNat - 2 ^ 23 := by
  have hne : n ≠ 0 := by rintro rfl; simp at h1
  simp only [strip, if_pos hne]
  have hb : n &&& 0xFF7FFFFF = BitVec.ofNat 32 (n.toNat % 2 ^ 23) := by
    apply BitVec.eq_of_getLsbD_eq
    intro i hi
    have hhi : ∀ j, 24 ≤ j → n.getLsbD j = false := by
      intro j hj
      rw [BitVec.getLsbD, Nat.testBit_lt_two_pow]
      exact lt_of_lt_of_le h2 (Nat.pow_le_pow_right (by omega) hj)
    rw [BitVec.getLsbD_and, BitVec.getLsbD_ofNat, Nat.testBit_mod_two_pow]
    by_cases hi23 : i < 23
    · have : (0xFF7FFFFF : Word).getLsbD i = true := by revert i; decide
      rw [this]; simp [hi, hi23, BitVec.getLsbD]
    · by_cases h23 : i = 23
      · subst h23; simp
      · rw [hhi i (by omega)]; simp [hi23]
  rw [hb, BitVec.toNat_ofNat, Nat.mod_eq_of_lt (by omega)]
  omega

@[simp] theorem strip_zero : strip 0 = 0 := rfl

end Sys2Proof.Machine
end

