-- ==== Sys2Proof/Laws/Encoding.lean ====
section
/-! SUPPORT. The transaction word and its fields (R33, R35). -/

namespace Sys2Proof

/-- A triple is read back from its word. -/
theorem Tx.ofWord_word (t : Tx) : Tx.ofWord t.word = t := by
  obtain ⟨op, a, b⟩ := t
  simp only [Tx.ofWord, Tx.word, Tx.mk.injEq]
  refine ⟨?_, ?_, ?_⟩ <;>
  · apply BitVec.eq_of_getLsbD_eq
    intro i hi
    simp only [BitVec.getLsbD_extractLsb', BitVec.getLsbD_append, hi, decide_true, Bool.true_and]
    grind

/-- A word is rebuilt from its fields. -/
theorem Tx.word_ofWord (w : TxWord) : (Tx.ofWord w).word = w := by
  simp only [Tx.ofWord, Tx.word]
  apply BitVec.eq_of_getLsbD_eq
  intro i hi
  simp only [BitVec.getLsbD_extractLsb', BitVec.getLsbD_append]
  grind

/-- Decoding a triple's word is decoding the triple. -/
theorem decode_word (t : Tx) : decode t.word = t.decode := by
  rw [decode, Tx.ofWord_word]

/-- Every triple decodes to an instruction that the same triple evaluates. -/
theorem Tx.decode_tx? (t : Tx) : t.decode.tx? = some t := by
  obtain ⟨op, a, b⟩ := t
  match op with
  | 0 => rfl
  | 1 => rfl
  | 2 => rfl
  | 3 => rfl

/-- The triple that evaluates an instruction decodes to the core instruction it stands for. -/
theorem Tx.decode_of_tx? {i : Instr} {t : Tx} (h : i.tx? = some t) : t.decode = i.expand := by
  cases i <;> simp only [Instr.tx?, Option.some.injEq, reduceCtorEq] at h <;> subst h <;> rfl

/-- A table word of at most 66 bits decodes to what its triple decodes to. -/
theorem decodeTableWord_eq {k w : Nat} {i : Instr} (h : decodeTableWord k w = some i) :
    i = decode (BitVec.ofNat 66 (w % 2 ^ k)) ∧ w % 2 ^ k < 2 ^ 66 := by
  unfold decodeTableWord decodeNumber at h
  split at h
  next hd =>
    split at hd
    next hlt => exact ⟨by simp_all, hlt⟩
    next => simp at hd
  next => simp at h

end Sys2Proof
end

