-- ==== Sys2Proof/Laws/Pipeline.lean ====
section
/-! SUPPORT. The pipeline as integer arithmetic (R71): what each wire holds for at-rest operands. -/

namespace Sys2Proof.Machine

/-- The carry the pipeline adds to an operand: none in FADD, that of SUB_CARRY in FSUB (R50). -/
def pipeCarry (p : OpenParams) (comp : Bit) (f : FloatValue) (ec : Nat) : Nat :=
  if comp = 1 then carryInto p f ec else 0

@[simp] theorem pipeCarry_add (p : OpenParams) (f : FloatValue) (ec : Nat) : pipeCarry p 0 f ec = 0 := by
  simp [pipeCarry]

@[simp] theorem pipeCarry_sub (p : OpenParams) (f : FloatValue) (ec : Nat) :
    pipeCarry p 1 f ec = carryInto p f ec := by
  simp [pipeCarry]

theorem carryInto_le (p : OpenParams) (f : FloatValue) (ec : Nat) : carryInto p f ec ≤ 1 := by
  unfold carryInto; split
  · exact bit_toNat_le _
  · omega

theorem pipeCarry_le (p : OpenParams) (comp : Bit) (f : FloatValue) (ec : Nat) : pipeCarry p comp f ec ≤ 1 := by
  unfold pipeCarry; split
  · exact carryInto_le ..
  · omega

/-- The unsigned aligned significand with its carry, the number on `ya` or `yb`. -/
def alignedMagnitude (p : OpenParams) (comp : Bit) (f : FloatValue) (ec : Nat) : Nat :=
  significand f / 2 ^ (ec - f.exponent.toNat) + pipeCarry p comp f ec

theorem alignedInteger_eq (p : OpenParams) (comp : Bit) (f : FloatValue) (ec : Nat) :
    alignedInteger f ec (pipeCarry p comp f ec) = signFactor f.sign * (alignedMagnitude p comp f ec : Nat) := rfl

/-- The operand with the common exponent is not moved. -/
theorem alignedMagnitude_self (p : OpenParams) (comp : Bit) (f : FloatValue) :
    alignedMagnitude p comp f f.exponent.toNat = significand f := by
  simp [alignedMagnitude, pipeCarry, carryInto]

/-- An operand that is moved falls below half the significand range, but for the carry (R50 (d)). -/
theorem alignedMagnitude_of_lt (p : OpenParams) (comp : Bit) {f : FloatValue} (hf : AtRest f) {ec : Nat}
    (h : f.exponent.toNat < ec) : alignedMagnitude p comp f ec ≤ 0x7FFFFF + pipeCarry p comp f ec := by
  have hb := (significand_bounds hf).2
  have h2 : 2 ≤ 2 ^ (ec - f.exponent.toNat) := by
    calc 2 = 2 ^ 1 := rfl
      _ ≤ _ := Nat.pow_le_pow_right (by omega) (by omega)
  have : significand f / 2 ^ (ec - f.exponent.toNat) ≤ significand f / 2 := Nat.div_le_div_left h2 (by omega)
  unfold alignedMagnitude
  omega

theorem alignedMagnitude_le (p : OpenParams) (comp : Bit) {f : FloatValue} (hf : AtRest f) {ec : Nat}
    (h : f.exponent.toNat ≤ ec) : alignedMagnitude p comp f ec ≤ 0xFFFFFF := by
  rcases Nat.lt_or_eq_of_le h with h | h
  · have := alignedMagnitude_of_lt p comp hf h
    have := pipeCarry_le p comp f ec
    omega
  · rw [← h, alignedMagnitude_self]; exact (significand_bounds hf).2

/-- The wires of steps 1 and 2 (R17): the aligned significands are the aligned magnitudes at the common exponent. -/
theorem pipe_aligned (p : OpenParams) {x y : FloatValue} (comp : Bit) (hx : AtRest x) (hy : AtRest y) :
    let w := pipe p x y comp
    w.xa.toNat = significand x ∧ w.xb.toNat = significand y
    ∧ w.ec.toNat = commonExponent x y ∧ w.d.toNat ≤ 255
    ∧ w.ya.toNat = alignedMagnitude p comp x (commonExponent x y)
    ∧ w.yb.toNat = alignedMagnitude p comp y (commonExponent x y) := by
  intro w
  have hxa : (withImplicitBit x).mantissa.toNat = significand x := implicit_toNat hx
  have hxb : (withImplicitBit y).mantissa.toNat = significand y := implicit_toNat hy
  refine ⟨hxa, hxb, ?_⟩
  have carry : ∀ (f : FloatValue) (m : Word) (d : Word) (ec : Nat), m.toNat = significand f → f.exponent.toNat < ec →
      d.toNat = ec - f.exponent.toNat → (alignCarry p m d comp).toNat = pipeCarry p comp f ec := by
    intro f m d ec hm hlt hd
    rcases bit_cases comp with rfl | rfl
    · rw [alignCarry_add, pipeCarry_add]; rfl
    · rw [alignCarry_sub, pipeCarry_sub, carryInto, if_pos hlt, hd, ← hm, BitVec.ofNat_toNat]
  have hal := align_cases p (withImplicitBit x).mantissa x.exponent (withImplicitBit y).mantissa y.exponent comp
  have hxe := hx.1
  have hye := hy.1
  show (align p _ _ _ _ comp).ec.toNat = _ ∧ (align p _ _ _ _ comp).d.toNat ≤ 255 ∧
    (align p _ _ _ _ comp).ya.toNat = _ ∧ (align p _ _ _ _ comp).yb.toNat = _
  rcases hal with ⟨hlt, hec, hd, hyb, hc, hya⟩ | ⟨hlt, hec, hd, hya, hc, hyb⟩ | ⟨heq, hec, hd, hya, hyb, hc⟩
  · have hcom : commonExponent x y = y.exponent.toNat := by simp only [commonExponent]; omega
    rw [hec, hd, hya, hyb, hcom, alignedMagnitude_self, hc, carry x _ _ y.exponent.toNat hxa hlt hd, hxa]
    exact ⟨rfl, by omega, rfl, hxb⟩
  · have hcom : commonExponent x y = x.exponent.toNat := by simp only [commonExponent]; omega
    rw [hec, hd, hya, hyb, hcom, alignedMagnitude_self, hc, carry y _ _ x.exponent.toNat hxb hlt hd, hxb]
    exact ⟨rfl, by omega, hxa, rfl⟩
  · have hcom : commonExponent x y = x.exponent.toNat := by simp only [commonExponent, heq, max_self]
    have hself : alignedMagnitude p comp y x.exponent.toNat = significand y := by
      rw [heq]; exact alignedMagnitude_self ..
    rw [hec, hd, hya, hyb, hcom, alignedMagnitude_self, hself]
    exact ⟨rfl, by simp, hxa, hxb⟩

/-- The signed integer the pipeline sums. -/
def pipeInteger (p : OpenParams) (comp : Bit) (x y : FloatValue) : Int :=
  alignedInteger x (commonExponent x y) (pipeCarry p comp x (commonExponent x y))
    + alignedInteger y (commonExponent x y) (pipeCarry p comp y (commonExponent x y))

theorem pipeInteger_add (p : OpenParams) (x y : FloatValue) : pipeInteger p 0 x y = integerSum x y := by
  simp only [pipeInteger, integerSum, pipeCarry_add]

theorem alignedInteger_negValue (f : FloatValue) (ec c : Nat) :
    alignedInteger (negValue f) ec c = -alignedInteger f ec c := by
  simp only [alignedInteger, negValue, signFactor_signInvert, significand]
  ring

theorem pipeInteger_sub (p : OpenParams) (x y : FloatValue) :
    pipeInteger p 1 x (negValue y) = integerDifference p x y := by
  have hc : commonExponent x (negValue y) = commonExponent x y := rfl
  have hi : ∀ ec, carryInto p (negValue y) ec = carryInto p y ec := fun _ => rfl
  simp only [pipeInteger, integerDifference, hc, pipeCarry_sub, hi, alignedInteger_negValue]
  ring

theorem commonExponent_le {x y : FloatValue} (hx : AtRest x) (hy : AtRest y) : commonExponent x y ≤ 255 := by
  simp only [commonExponent]; exact max_le hx.1 hy.1

/-- The wires of steps 4 to 6 (R64): sign and absolute value of the signed integer. -/
theorem pipe_signMag (p : OpenParams) {x y : FloatValue} (comp : Bit) (hx : AtRest x) (hy : AtRest y) :
    let w := pipe p x y comp
    (w.rs = 1 ↔ pipeInteger p comp x y < 0) ∧ w.mag.toNat = (pipeInteger p comp x y).natAbs
    ∧ w.mag.toNat ≤ 0x1FFFFFE := by
  intro w
  obtain ⟨-, -, -, -, hya, hyb⟩ := pipe_aligned p comp hx hy
  have ba := alignedMagnitude_le p comp hx (ec := commonExponent x y) (le_max_left _ _)
  have bb := alignedMagnitude_le p comp hy (ec := commonExponent x y) (le_max_right _ _)
  have had := adder_spec x.sign y.sign (ya := w.ya) (yb := w.yb) (by rw [hya]; exact ba) (by rw [hyb]; exact bb)
  have hv : signFactor x.sign * w.ya.toNat + signFactor y.sign * w.yb.toNat = pipeInteger p comp x y := by
    rw [hya, hyb]; rfl
  rw [hv] at had
  exact had

/-- The wires of steps 7 and 8 for a zero sum (R54). -/
theorem pipe_zero (p : OpenParams) {x y : FloatValue} (comp : Bit) (hx : AtRest x) (hy : AtRest y)
    (hv : pipeInteger p comp x y = 0) :
    let w := pipe p x y comp
    w.rs = 0 ∧ w.mag = 0 ∧ w.found = 0 ∧ w.delta = none ∧ w.nmag = 0 ∧ w.ne = p.zeroMagExp w.ec ∧ w.frac = 0 := by
  intro w
  obtain ⟨hrs, hmag, -⟩ := pipe_signMag p comp hx hy
  rw [hv] at hrs hmag
  have hm : w.mag = 0 := BitVec.eq_of_toNat_eq (by simpa using hmag)
  have hr := renorm_zero p w.ec
  have h : renorm p w.mag w.ec = _ := (congrArg (renorm p · w.ec) hm).trans hr
  refine ⟨bit_ne_one.1 fun h1 => absurd (hrs.1 h1) (lt_irrefl 0), hm, ?_, ?_, ?_, ?_, ?_⟩
  · show (renorm p w.mag w.ec).found = 0; rw [h]
  · show (renorm p w.mag w.ec).delta = none; rw [h]
  · show (renorm p w.mag w.ec).nmag = 0; rw [h]
  · show (renorm p w.mag w.ec).ne = _; rw [h]
  · show strip (renorm p w.mag w.ec).nmag = 0; rw [h]; rfl

/-- The wires of steps 7 and 8 for a non-zero sum (R53, R55, R56). -/
theorem pipe_nonzero (p : OpenParams) {x y : FloatValue} (comp : Bit) (hx : AtRest x) (hy : AtRest y)
    (hv : pipeInteger p comp x y ≠ 0) :
    let w := pipe p x y comp
    let v := pipeInteger p comp x y
    let k := v.natAbs.log2
    k ≤ 24 ∧ w.found = 1 ∧ w.delta = some ((k : Int) - 23) ∧ w.ne = w.ec + BitVec.ofInt 32 ((k : Int) - 23)
    ∧ w.nmag.toNat = v.natAbs * 2 ^ 23 / 2 ^ k ∧ 2 ^ 23 ≤ w.nmag.toNat ∧ w.nmag.toNat < 2 ^ 24
    ∧ w.frac.toNat = w.nmag.toNat - 2 ^ 23
    ∧ ({ sign := w.rs, exponent := w.ne, mantissa := w.frac } : FloatValue)
        = normalizedTuple v (commonExponent x y) := by
  intro w v k
  obtain ⟨-, -, hec, -, -, -⟩ := pipe_aligned p comp hx hy
  obtain ⟨hrs, hmag, hle⟩ := pipe_signMag p comp hx hy
  have hpos : 0 < w.mag.toNat := by
    show 0 < (pipe p x y comp).mag.toNat
    omega
  obtain ⟨hk, hf, -, hdl, hne, hnm, hlo, hhi⟩ := renorm_of_pos p (mag := w.mag) w.ec hpos (lt_of_le_of_lt hle (by norm_num))
  have hlog : w.mag.toNat.log2 = k := by rw [hmag]
  rw [hlog] at hk hdl hne hnm
  have hnm' : w.nmag.toNat = v.natAbs * 2 ^ 23 / 2 ^ k := by rw [← hmag]; exact hnm
  have hfr : w.frac.toNat = w.nmag.toNat - 2 ^ 23 := strip_toNat hlo hhi
  refine ⟨hk, hf, hdl, hne, hnm', hlo, hhi, hfr, ?_⟩
  apply FloatValue.ext_toNat
  · show w.rs = Bit.of (v < 0)
    rcases bit_cases w.rs with h | h
    · rw [h, eq_comm, Bit.of_eq_zero]
      intro hlt; rw [hrs.2 hlt] at h; exact absurd h (by decide)
    · rw [h, eq_comm, Bit.of_eq_one]; exact hrs.1 h
  · show w.ne.toNat = (BitVec.ofInt 32 ((commonExponent x y : Int) + k - 23)).toNat
    have hne' : w.ne = w.ec + BitVec.ofInt 32 ((k : Int) - 23) := hne
    rw [hne', ← hec, show ((w.ec.toNat : Nat) : Int) + k - 23 = (w.ec.toNat : Int) + ((k : Int) - 23) by ring,
      BitVec.ofInt_add, BitVec.ofInt_natCast, BitVec.ofNat_toNat, BitVec.setWidth_eq]
  · show w.frac.toNat = (BitVec.ofNat 32 (v.natAbs * 2 ^ 23 / 2 ^ k - 2 ^ 23)).toNat
    rw [hfr, hnm', BitVec.toNat_ofNat, Nat.mod_eq_of_lt]
    rw [← hnm']; have h24 : w.nmag.toNat < 2 ^ 24 := hhi; omega

/-- A zero sum in FADD is exactly the flagged case (R73). -/
theorem integerSum_eq_zero_iff {x y : FloatValue} (hx : AtRest x) (hy : AtRest y) :
    integerSum x y = 0 ↔ y = negValue x := by
  have bx := significand_bounds hx
  have by' := significand_bounds hy
  have key : ∀ (f g : FloatValue), AtRest f → AtRest g → f.exponent.toNat < g.exponent.toNat →
      significand f / 2 ^ (commonExponent f g - f.exponent.toNat) ≤ 0x7FFFFF ∧
      significand g / 2 ^ (commonExponent f g - g.exponent.toNat) = significand g := by
    intro f g hf hg hlt
    have hc : commonExponent f g = g.exponent.toNat := by simp only [commonExponent]; omega
    have h1 := alignedMagnitude_of_lt ⟨fun _ _ => 0, fun _ => 0⟩ 0 hf hlt
    rw [hc]
    simp only [alignedMagnitude, pipeCarry_add, Nat.add_zero] at h1
    exact ⟨h1, by simp⟩
  have hcomm : commonExponent x y = commonExponent y x := by simp only [commonExponent, max_comm]
  constructor
  · intro h0
    simp only [integerSum, alignedInteger, Nat.add_zero] at h0
    rcases Nat.lt_trichotomy x.exponent.toNat y.exponent.toNat with hlt | heq | hlt
    · obtain ⟨h1, h2⟩ := key x y hx hy hlt
      rw [h2] at h0
      generalize significand x / _ = q at h0 h1
      rcases bit_cases x.sign with hs | hs <;> rcases bit_cases y.sign with ht | ht <;>
        simp only [hs, ht, signFactor_zero, signFactor_one] at h0 <;> omega
    · have hc : commonExponent x y = x.exponent.toNat := by simp only [commonExponent]; omega
      rw [hc, ← heq] at h0
      simp only [Nat.sub_self, pow_zero, Nat.div_one] at h0
      have hsig : significand x = significand y := by
        rcases bit_cases x.sign with hs | hs <;> rcases bit_cases y.sign with ht | ht <;>
          simp only [hs, ht, signFactor_zero, signFactor_one] at h0 <;> omega
      apply FloatValue.ext_toNat
      · rcases bit_cases x.sign with hs | hs <;> rcases bit_cases y.sign with ht | ht <;>
          simp only [hs, ht, signFactor_zero, signFactor_one, negValue, signInvert] at h0 ⊢ <;>
          first | (exfalso; omega) | decide
      · exact heq.symm
      · simp only [significand] at hsig
        simp only [negValue]; omega
    · obtain ⟨h1, h2⟩ := key y x hy hx hlt
      rw [← hcomm] at h1 h2
      rw [h2] at h0
      generalize significand y / _ = q at h0 h1
      rcases bit_cases x.sign with hs | hs <;> rcases bit_cases y.sign with ht | ht <;>
        simp only [hs, ht, signFactor_zero, signFactor_one] at h0 <;> omega
  · rintro rfl
    have hc : commonExponent x (negValue x) = x.exponent.toNat := by simp [commonExponent, negValue]
    simp only [integerSum, hc, alignedInteger_negValue]
    ring

/-- CANCEL_ADD in FADD is a zero sum (R70, R73). -/
theorem cancelAdd_pipe (p : OpenParams) {x y : FloatValue} (hx : AtRest x) (hy : AtRest y) :
    cancelAdd x.sign y.sign (pipe p x y 0).ya (pipe p x y 0).yb = 1 ↔ integerSum x y = 0 := by
  obtain ⟨-, -, -, -, hya, hyb⟩ := pipe_aligned p 0 hx hy
  have hs : integerSum x y = signFactor x.sign * ((pipe p x y 0).ya.toNat : Nat)
      + signFactor y.sign * ((pipe p x y 0).yb.toNat : Nat) := by
    rw [← pipeInteger_add p, hya, hyb]; rfl
  have hpos : 0 < (pipe p x y 0).ya.toNat ∨ 0 < (pipe p x y 0).yb.toNat := by
    rw [hya, hyb]
    rcases le_total x.exponent.toNat y.exponent.toNat with h | h
    · right
      rw [show commonExponent x y = y.exponent.toNat by simp only [commonExponent]; omega, alignedMagnitude_self]
      have := significand_bounds hy; omega
    · left
      rw [show commonExponent x y = x.exponent.toNat by simp only [commonExponent]; omega, alignedMagnitude_self]
      have := significand_bounds hx; omega
  rw [cancelAdd, Bit.of_eq_one, hs]
  have hnat : (pipe p x y 0).ya = (pipe p x y 0).yb ↔ (pipe p x y 0).ya.toNat = (pipe p x y 0).yb.toNat :=
    ⟨fun h => by rw [h], BitVec.eq_of_toNat_eq⟩
  rw [hnat]
  generalize (pipe p x y 0).ya.toNat = m at hpos ⊢
  generalize (pipe p x y 0).yb.toNat = n at hpos ⊢
  rcases bit_cases x.sign with h1 | h1 <;> rcases bit_cases y.sign with h2 | h2 <;>
    simp only [h1, h2, signFactor_zero, signFactor_one] <;> constructor <;> intro h <;>
    first | omega | exact absurd rfl h.1 | (refine ⟨by decide, by omega⟩)

/-- FADD_T is addition in integers (R73). -/
theorem faddT_eq (p : OpenParams) {x y : FloatValue} (hx : AtRest x) (hy : AtRest y) :
    faddT p x y = integerAdd x y := by
  have hc := cancelAdd_pipe p hx hy
  have hu : faddT p x y = if cancelAdd x.sign y.sign (pipe p x y 0).ya (pipe p x y 0).yb = 1 then FloatValue.zero else
      { sign := (pipe p x y 0).rs, exponent := (pipe p x y 0).ne, mantissa := (pipe p x y 0).frac } := rfl
  rw [hu, integerAdd]
  by_cases h : integerSum x y = 0
  · rw [if_pos (hc.2 h), if_pos h]
  · rw [if_neg (mt hc.1 h), if_neg h]
    have hn := pipe_nonzero p 0 hx hy (by rwa [pipeInteger_add])
    rw [pipeInteger_add] at hn
    exact hn.2.2.2.2.2.2.2.2

/-- CANCEL_SUB on at-rest operands is equality of the tuples (R80). -/
theorem cancelSub_eq_one {x y : FloatValue} (hx : AtRest x) (hy : AtRest y) : cancelSub x y = 1 ↔ x = y := by
  rw [cancelSub, Bit.of_eq_one]
  constructor
  · rintro ⟨hs, he, hm⟩
    apply FloatValue.ext_toNat hs (by rw [he])
    have h1 := implicit_toNat hx
    have h2 := implicit_toNat hy
    rw [hm, h2] at h1
    simp only [significand] at h1
    omega
  · rintro rfl; exact ⟨rfl, rfl, rfl⟩

/-- FSUB_T is subtraction in integers (R82). -/
theorem fsubT_eq (p : OpenParams) {x y : FloatValue} (hx : AtRest x) (hy : AtRest y) :
    fsubT p x y = integerSub p x y := by
  have hc := cancelSub_eq_one hx hy
  have hny := atRest_negValue hy
  have hu : fsubT p x y = if cancelSub x y = 1 then FloatValue.zero else
      { sign := (pipe p x (negValue y) 1).rs, exponent := (pipe p x (negValue y) 1).ne
        mantissa := (pipe p x (negValue y) 1).frac } := rfl
  rw [hu, integerSub]
  by_cases h : x = y
  · rw [if_pos (hc.2 h), if_pos h]
  · rw [if_neg (mt hc.1 h), if_neg h]
    by_cases hz : integerDifference p x y = 0
    · rw [if_pos hz]
      obtain ⟨h1, -, -, -, -, h2, h3⟩ := pipe_zero p 1 hx hny (by rw [pipeInteger_sub]; exact hz)
      obtain ⟨-, -, hec, -⟩ := pipe_aligned p 1 hx hny
      rw [h1, h2, h3]
      congr 2
      apply BitVec.eq_of_toNat_eq
      have := commonExponent_le hx hny
      rw [hec, BitVec.toNat_ofNat, Nat.mod_eq_of_lt (by show commonExponent x (negValue y) < _; omega)]
      rfl
    · rw [if_neg hz]
      have hn := pipe_nonzero p 1 hx hny (by rwa [pipeInteger_sub])
      rw [pipeInteger_sub] at hn
      exact hn.2.2.2.2.2.2.2.2

/-- No carry is added to an operand that loses only zeros (R52 item 5). -/
theorem carryInto_of_lossless (p : OpenParams) (f : FloatValue) (hf : AtRest f) (ec : Nat) (h : lostBits f ec = 0) : carryInto p f ec = 0 := by
  unfold carryInto; split
  · rw [subCarry_of_lossless]; · rfl
    have := significand_bounds hf
    have e : (BitVec.ofNat 24 (significand f)).toNat = significand f := by rw [BitVec.toNat_ofNat]; exact Nat.mod_eq_of_lt (by omega)
    rw [e]; exact h
  · rfl

/-- Where no carry is added, subtraction is addition of the negation (R85). -/
theorem integerSub_of_carry_zero (p : OpenParams) {x y : FloatValue} (hx : AtRest x) (hy : AtRest y)
   (h1 : carryInto p x (commonExponent x y) = 0) (h2 : carryInto p y (commonExponent x y) = 0) : integerSub p x y = integerAdd x (negValue y) := by
  have hd : integerDifference p x y = integerSum x (negValue y) := by
    have hc : commonExponent x (negValue y) = commonExponent x y := rfl
    simp only [integerDifference, integerSum, h1, h2, hc, alignedInteger_negValue]; ring
  have hz := integerSum_eq_zero_iff hx (atRest_negValue hy)
  have hinv : negValue y = negValue x ↔ x = y := by
    constructor
    · intro h
      have : negValue (negValue y) = negValue (negValue x) := by rw [h]
      have nn : ∀ f, negValue (negValue f) = f := by
        intro f; cases f; rename_i s e m; revert s; simp only [negValue, FloatValue.mk.injEq, and_true]; decide
      rw [nn, nn] at this; exact this.symm
    · rintro rfl; rfl
  rw [hinv] at hz
  rw [integerSub, integerAdd, hd]
  by_cases h : x = y
  · rw [if_pos h, if_pos (hz.2 h)]
  · rw [if_neg h, if_neg (mt hz.1 h), if_neg (mt hz.1 h)]; rfl

/-- Every wire of the pipeline is in the range of R17. -/
theorem pipe_inRange (p : OpenParams) {x y : FloatValue} (cancel comp : Bit) (hx : AtRest x) (hy : AtRest y) :
    WiresInRange { cancel := cancel, pipe := pipe p x y comp } := by
  obtain ⟨hxa, hxb, hec, hd, hya, hyb⟩ := pipe_aligned p comp hx hy
  obtain ⟨-, hmag, hle⟩ := pipe_signMag p comp hx hy
  have bx := significand_bounds hx
  have by' := significand_bounds hy
  have ba := alignedMagnitude_le p comp hx (ec := commonExponent x y) (le_max_left _ _)
  have bb := alignedMagnitude_le p comp hy (ec := commonExponent x y) (le_max_right _ _)
  have bc := commonExponent_le hx hy
  by_cases hv : pipeInteger p comp x y = 0
  · obtain ⟨-, hm, hf, hdl, hnm, -, hfr⟩ := pipe_zero p comp hx hy hv
    exact {
      xa := by rw [hxa]; omega
      xb := by rw [hxb]; omega
      d := hd
      ya := by rw [hya]; omega
      yb := by rw [hyb]; omega
      ec := by rw [hec]; omega
      mag := hle
      found := by rw [hf]; exact ⟨fun h => absurd h (by decide), fun h => absurd hm h⟩
      delta := by intro z hz; rw [hdl] at hz; cases hz
      nmag := fun h => absurd hm h
      frac := by rw [hfr]; simp }
  · obtain ⟨hk, hf, hdl, hne, -, hlo, hhi, hfr, -⟩ := pipe_nonzero p comp hx hy hv
    have hm : (pipe p x y comp).mag ≠ 0 := by
      intro h; rw [h] at hmag; simp at hmag; omega
    exact {
      xa := by rw [hxa]; omega
      xb := by rw [hxb]; omega
      d := hd
      ya := by rw [hya]; omega
      yb := by rw [hyb]; omega
      ec := by rw [hec]; omega
      mag := hle
      found := by rw [hf]; exact ⟨fun _ => hm, fun _ => rfl⟩
      delta := by
        intro z hz
        rw [hdl] at hz
        obtain rfl := Option.some.inj hz
        exact ⟨by omega, by omega, hne⟩
      nmag := fun _ => ⟨hlo, by show (pipe p x y comp).nmag.toNat ≤ _; omega⟩
      frac := by rw [hfr]; omega }

end Sys2Proof.Machine
end

