-- ==== Sys2Proof/Laws/State.lean ====
section
/-! SUPPORT. One lemma per field per update of State, so that no proof unfolds an update. -/

namespace Sys2Proof.Machine

variable (s : State) (t : Tx) (A B R : FloatValue) (n : Option Internal) (w : Word) (q : Bit) (o : StageOut)

@[simp] theorem State.drive_inputs : (s.drive t A B n R w q).inputs = t := rfl
@[simp] theorem State.drive_pending : (s.drive t A B n R w q).pending = s.pending := rfl
@[simp] theorem State.drive_wireA : (s.drive t A B n R w q).wireA = A := rfl
@[simp] theorem State.drive_wireB : (s.drive t A B n R w q).wireB = B := rfl
@[simp] theorem State.drive_internal : (s.drive t A B n R w q).internal = n := rfl
@[simp] theorem State.drive_stage : (s.drive t A B n R w q).stage = s.stage := rfl
@[simp] theorem State.drive_outputs : (s.drive t A B n R w q).outputs =
    { rSign := R.sign, rExp := R.exponent, rMan := R.mantissa, rBits := w, eq := q } := rfl

@[simp] theorem State.answer_inputs : (s.answer o).inputs = s.inputs := rfl
@[simp] theorem State.answer_pending : (s.answer o).pending = s.pending := rfl
@[simp] theorem State.answer_wireA : (s.answer o).wireA = s.wireA := rfl
@[simp] theorem State.answer_wireB : (s.answer o).wireB = s.wireB := rfl
@[simp] theorem State.answer_internal : (s.answer o).internal = s.internal := rfl
@[simp] theorem State.answer_outputs : (s.answer o).outputs = s.outputs := rfl
@[simp] theorem State.answer_stage : (s.answer o).stage = o := rfl

@[simp] theorem State.present_outputs : s.present.outputs = s.outputs := by unfold State.present; split <;> rfl
@[simp] theorem State.present_wireA : s.present.wireA = s.wireA := by unfold State.present; split <;> rfl
@[simp] theorem State.present_wireB : s.present.wireB = s.wireB := by unfold State.present; split <;> rfl
@[simp] theorem State.present_internal : s.present.internal = s.internal := by unfold State.present; split <;> rfl
@[simp] theorem State.present_stage : s.present.stage = s.stage := by unfold State.present; split <;> rfl
@[simp] theorem State.present_pending : s.present.pending = s.pending.tail := by
  unfold State.present; split <;> simp_all
@[simp] theorem State.present_inputs : s.present.inputs = s.pending.headD s.inputs := by
  unfold State.present; split <;> simp_all

theorem State.present_of_cons {rest : List Tx} (h : s.pending = t :: rest) :
    s.present = { s with inputs := t, pending := rest } := by
  simp [State.present, h]

theorem State.present_of_nil (h : s.pending = []) : s.present = s := by
  simp [State.present, h]

@[simp] theorem State.withFetchWord_pending (k v : Nat) : (s.withFetchWord k v).pending =
    Tx.ofWord (BitVec.ofNat 66 (v % 2 ^ k)) :: s.pending := rfl
@[simp] theorem State.withFetchWord_inputs (k v : Nat) : (s.withFetchWord k v).inputs = s.inputs := rfl
@[simp] theorem State.withFetchWord_outputs (k v : Nat) : (s.withFetchWord k v).outputs = s.outputs := rfl
@[simp] theorem State.withFetchWord_stage (k v : Nat) : (s.withFetchWord k v).stage = s.stage := rfl

end Sys2Proof.Machine
end

