-- ==== Sys2Proof/Laws/Exec.lean ====
section
/-! SUPPORT. What an instruction and a step can do, said once: a transaction drives the ports with the function of
R15, a stage-level evaluation records its answer. -/

namespace Sys2Proof.Machine

/-- The pipeline's signals in an evaluation of a triple: they exist for op 00 and 01 (R16). -/
def signals (p : OpenParams) (x : Tx) : Option Internal :=
  match x.op with
  | 0 => some (additionSignals p (unpack x.a) (unpack x.b))
  | 1 => some (subtractionSignals p (unpack x.a) (unpack x.b))
  | 2 => none
  | 3 => none

/-- The state after one evaluation of a triple (R15). -/
def State.evaluate (s : State) (x : Tx) : State :=
  s.drive x (unpack x.a) (unpack x.b) (signals Config.params x) (topLevel Config.params x).1
    (pack (topLevel Config.params x).1) (topLevel Config.params x).2

/-- Every instruction that a triple evaluates is one evaluation of that triple. -/
theorem exec_of_tx? {i : Instr} {x : Tx} (s : State) (h : i.tx? = some x) : exec i s = .next (s.evaluate x) := by
  cases i <;> simp only [Instr.tx?, Option.some.injEq, reduceCtorEq] at h <;> subst h <;> rfl

/-- Every stage-level evaluation that answers a next state changes the stage-level answer alone. -/
theorem exec_stage_frame {i : Instr} {s t : State} (h : i.tx? = none) (he : exec i s = .next t) :
    t = s.answer t.stage := by
  cases i <;> simp only [Instr.tx?, reduceCtorEq] at h <;>
    simp only [exec, execUnpack, execPack, execWithImplicitBit, execBitAt, execFindMsb, execAlign, execSubCarry,
      execRenorm, execStrip, execTcConvert, execSum, execSignRecover, execCancelAdd, execPipe, execFinalize, execFaddT,
      execCancelSub, execSignInvert, execFsubT, execEquals] at he <;>
    (try split at he) <;> cases he <;> rfl

/-- A step evaluates the transaction the host presents. -/
theorem step_eq (s : State) : step s = .next (s.present.evaluate s.present.inputs) := by
  have h : s.present.inputs.decode.tx? = some s.present.inputs := Tx.decode_tx? _
  rw [step, State.fetch, decode_word, exec_of_tx? _ h]

theorem step_inv {s t : State} (h : step s = .next t) : t = s.present.evaluate s.present.inputs := by
  rw [step_eq] at h; cases h; rfl

@[simp] theorem State.evaluate_inputs (s : State) (x : Tx) : (s.evaluate x).inputs = x := rfl
@[simp] theorem State.evaluate_pending (s : State) (x : Tx) : (s.evaluate x).pending = s.pending := rfl
@[simp] theorem State.evaluate_stage (s : State) (x : Tx) : (s.evaluate x).stage = s.stage := rfl
@[simp] theorem State.evaluate_wireA (s : State) (x : Tx) : (s.evaluate x).wireA = unpack x.a := rfl
@[simp] theorem State.evaluate_wireB (s : State) (x : Tx) : (s.evaluate x).wireB = unpack x.b := rfl
@[simp] theorem State.evaluate_internal (s : State) (x : Tx) :
    (s.evaluate x).internal = signals Config.params x := rfl
@[simp] theorem State.evaluate_outputs (s : State) (x : Tx) : (s.evaluate x).outputs =
    outputsOf (topLevel Config.params x).1 (topLevel Config.params x).2 := rfl

theorem op_cases (o : BitVec 2) : o = 0 ∨ o = 1 ∨ o = 2 ∨ o = 3 := by
  revert o; decide

/-- What R15 drives for FADD, in integers. -/
theorem topLevel_fadd (p : OpenParams) (a b : Word) :
    topLevel p { op := 0, a := a, b := b } = (integerAdd (unpack a) (unpack b), 0) := by
  show (faddT p (unpack a) (unpack b), (0 : Bit)) = _
  rw [faddT_eq p (atRest_unpack a) (atRest_unpack b)]

/-- What R15 drives for FSUB, in integers. -/
theorem topLevel_fsub (p : OpenParams) (a b : Word) :
    topLevel p { op := 1, a := a, b := b } = (integerSub p (unpack a) (unpack b), 0) := by
  show (fsubT p (unpack a) (unpack b), (0 : Bit)) = _
  rw [fsubT_eq p (atRest_unpack a) (atRest_unpack b)]

/-- EQUALS on an unpacked word is equality of words (R89). -/
theorem equals_unpack (a b : Word) : equals (unpack a) b = 1 ↔ a = b := by
  rw [equals, Bit.of_eq_one]
  constructor
  · rintro ⟨h1, h2, h3⟩
    exact unpack_injective (FloatValue.ext_toNat h1 (by rw [h2]) (by rw [h3]))
  · rintro rfl; exact ⟨rfl, rfl, rfl⟩

/-- The state after an evaluation is coherent. -/
theorem coherent_evaluate (s : State) (x : Tx) : Coherent (s.evaluate x) := by
  obtain ⟨op, a, b⟩ := x
  refine ⟨rfl, rfl, rfl, ?_, ?_, ?_⟩ <;> intro h <;> simp only [State.evaluate_inputs] at h
  · subst h; rfl
  · subst h; rfl
  · rcases h with h | h <;> subst h <;> rfl

/-- A stage-level answer disturbs no port or wire. -/
theorem coherent_answer {s : State} (o : StageOut) (h : Coherent s) : Coherent (s.answer o) :=
  ⟨h.outputs, h.wireA, h.wireB, h.addition, h.subtraction, h.noPipeline⟩

end Sys2Proof.Machine
end

