-- ==== Sys2Proof/Laws/PerInstr.lean ====
section
/-! SUPPORT. A per-instruction family: expanding the pseudo-operation (R38) is done in one step, and keeps the encoding and
the well-formedness. -/

namespace Sys2Proof.Laws.Expansion

/-- The instruction and the core instruction it stands for share their word, and expanding again changes nothing. -/
def Statement (i : Instr) : Prop :=
  i.expand.expand = i.expand ∧ encode i.expand = encode i ∧ i.expand.wellFormed = i.wellFormed

theorem fadd (a b : Word) : Statement (.fadd a b) := ⟨rfl, rfl, rfl⟩
theorem fsub (a b : Word) : Statement (.fsub a b) := ⟨rfl, rfl, rfl⟩
theorem feq (a b : Word) : Statement (.feq a b) := ⟨rfl, rfl, rfl⟩
theorem reserved (a b : Word) : Statement (.reserved a b) := ⟨rfl, rfl, rfl⟩
theorem unpack (w : Word) : Statement (.unpack w) := ⟨rfl, rfl, rfl⟩
theorem pack (f : FloatValue) : Statement (.pack f) := ⟨rfl, rfl, rfl⟩
theorem withImplicitBit (f : FloatValue) : Statement (.withImplicitBit f) := ⟨rfl, rfl, rfl⟩
theorem bitAt (f : FloatValue) (i : BitVec 5) : Statement (.bitAt f i) := ⟨rfl, rfl, rfl⟩
theorem findMsb (m : Word) (start : BitVec 5) : Statement (.findMsb m start) := ⟨rfl, rfl, rfl⟩
theorem align (xa ea xb eb : Word) (comp : Bit) : Statement (.align xa ea xb eb comp) := ⟨rfl, rfl, rfl⟩
theorem subCarry (sig : BitVec 24) (d : BitVec 8) : Statement (.subCarry sig d) := ⟨rfl, rfl, rfl⟩
theorem renorm (mag ec : Word) : Statement (.renorm mag ec) := ⟨rfl, rfl, rfl⟩
theorem strip (nmag : Word) : Statement (.strip nmag) := ⟨rfl, rfl, rfl⟩
theorem tcConvert (s : Bit) (y : Word) : Statement (.tcConvert s y) := ⟨rfl, rfl, rfl⟩
theorem sum (ta tb : Word) : Statement (.sum ta tb) := ⟨rfl, rfl, rfl⟩
theorem signRecover (acc : Word) : Statement (.signRecover acc) := ⟨rfl, rfl, rfl⟩
theorem cancelAdd (sa sb : Bit) (ya yb : Word) : Statement (.cancelAdd sa sb ya yb) := ⟨rfl, rfl, rfl⟩
theorem pipe (x y : FloatValue) (comp : Bit) : Statement (.pipe x y comp) := ⟨rfl, rfl, rfl⟩
theorem finalize (cancel rs : Bit) (ne frac : Word) : Statement (.finalize cancel rs ne frac) := ⟨rfl, rfl, rfl⟩
theorem faddT (x y : FloatValue) : Statement (.faddT x y) := ⟨rfl, rfl, rfl⟩
theorem cancelSub (x y : FloatValue) : Statement (.cancelSub x y) := ⟨rfl, rfl, rfl⟩
theorem signInvert (sb : Bit) : Statement (.signInvert sb) := ⟨rfl, rfl, rfl⟩
theorem fsubT (x y : FloatValue) : Statement (.fsubT x y) := ⟨rfl, rfl, rfl⟩
theorem equals (f : FloatValue) (n : Word) : Statement (.equals f n) := ⟨rfl, rfl, rfl⟩
theorem fcopy (a : Word) : Statement (.fcopy a) := ⟨rfl, rfl, rfl⟩

end Sys2Proof.Laws.Expansion
end

