-- ==== Sys2Proof/Laws/Value.lean ====
section
/-! SUPPORT. The numbers tuples denote (R6), for the statements about values. -/

namespace Sys2Proof.Machine

/-- The number a tuple denotes is its signed significand in units of its own exponent (R6). -/
theorem value_eq (f : FloatValue) : value f = (signFactor f.sign : ℚ) * (significand f : ℚ) * ulp f.exponent := by
  have h : ulp f.exponent = (2:ℚ) ^ ((f.exponent.toNat : ℤ) - 127) / 2 ^ 23 := by
    rw [ulp, zpow_sub₀ (by norm_num) _ ((Config.implicitBit : ℕ) : ℤ)]; rfl
  rw [h, value, significand]
  simp only [Config.implicitBit, Config.bias]
  push_cast
  field_simp
  norm_num

/-- A unit is positive. -/
theorem ulp_pos (e : Word) : 0 < ulp e := by unfold ulp; positivity

/-- Units at two exponents differ by a power of two. -/
theorem ulp_shift {e ec : Word} (h : e.toNat ≤ ec.toNat) : ulp ec = 2 ^ (ec.toNat - e.toNat) * ulp e := by
  unfold ulp
  rw [← zpow_natCast, ← zpow_add₀ (by norm_num)]
  congr 1; push_cast [h]; ring

/-- A tuple's number at a larger exponent: what alignment keeps, plus what it loses (R51). -/
theorem value_aligned (f : FloatValue) {ec : Word} (h : f.exponent.toNat ≤ ec.toNat) :
    value f = alignedInteger f ec.toNat 0 * ulp ec + (signFactor f.sign : ℚ) * lostBits f ec.toNat * ulp f.exponent := by
  rw [value_eq, alignedInteger, ulp_shift h, lostBits]
  have h1 : (significand f : ℚ) = ((significand f / 2 ^ (ec.toNat - f.exponent.toNat) : ℕ) : ℚ) * 2 ^ (ec.toNat - f.exponent.toNat)
    + ((significand f % 2 ^ (ec.toNat - f.exponent.toNat) : ℕ) : ℚ) := by
    have := Nat.div_add_mod' (significand f) (2 ^ (ec.toNat - f.exponent.toNat))
    exact_mod_cast this.symm
  generalize significand f / 2 ^ (ec.toNat - f.exponent.toNat) = q at h1 ⊢
  generalize significand f % 2 ^ (ec.toNat - f.exponent.toNat) = r at h1 ⊢
  rw [h1]; push_cast; ring

/-- The number a normalised tuple denotes (R56): the integer at the common exponent, less the lowest bit when the leading bit
is at position 24. -/
theorem value_normalized {v : Int} (hv : v ≠ 0) {ec : Word} (hec : ec.toNat ≤ 255) (hk : v.natAbs.log2 ≤ 24)
   (hn : NormalExponent (normalizedTuple v ec.toNat).exponent) :
   value (normalizedTuple v ec.toNat) = (signFactor (Bit.of (v < 0)) : ℚ) * ((v.natAbs - (if v.natAbs.log2 = 24 then v.natAbs % 2 else 0) : ℕ) : ℚ) * ulp ec := by
  have e : ((normalizedTuple v ec.toNat).exponent.toNat : ℤ) = ec.toNat + v.natAbs.log2 - 23 := by
    have h2 := hn.1; have h3 := hn.2
    simp only [normalizedTuple, BitVec.toNat_ofInt] at h2 h3 ⊢
    omega
  have hlo : 2 ^ v.natAbs.log2 ≤ v.natAbs := Nat.log2_self_le (by omega)
  have hhi : v.natAbs < 2 ^ (v.natAbs.log2 + 1) := Nat.lt_log2_self
  have hs : (normalizedTuple v ec.toNat).sign = Bit.of (v < 0) := rfl
  suffices hgoal : (significand (normalizedTuple v ec.toNat) : ℚ) * ulp (normalizedTuple v ec.toNat).exponent = ((v.natAbs - (if v.natAbs.log2 = 24 then v.natAbs % 2 else 0) : ℕ) : ℚ) * ulp ec by
    rw [value_eq, hs, mul_assoc, mul_assoc, hgoal]
  have hu : ulp (normalizedTuple v ec.toNat).exponent = ulp ec * (2:ℚ) ^ ((v.natAbs.log2 : ℤ) - 23) := by
    rw [ulp, ulp, e, ← zpow_add₀ (by norm_num)]; congr 1; ring
  have hm : significand (normalizedTuple v ec.toNat) = v.natAbs * 2 ^ 23 / 2 ^ v.natAbs.log2 := by
    have a1 : 2 ^ 23 ≤ v.natAbs * 2 ^ 23 / 2 ^ v.natAbs.log2 := by
      rw [Nat.le_div_iff_mul_le (by positivity), Nat.mul_comm]; exact Nat.mul_le_mul_right _ hlo
    have a2 : v.natAbs * 2 ^ 23 / 2 ^ v.natAbs.log2 < 2 ^ 24 := by
      rw [Nat.div_lt_iff_lt_mul (by positivity)]
      calc v.natAbs * 2 ^ 23 < 2 ^ (v.natAbs.log2 + 1) * 2 ^ 23 := Nat.mul_lt_mul_of_pos_right hhi (by norm_num)
        _ = 2 ^ 24 * 2 ^ v.natAbs.log2 := by ring
    show 2 ^ 23 + (BitVec.ofNat 32 (v.natAbs * 2 ^ 23 / 2 ^ v.natAbs.log2 - 2 ^ 23)).toNat = _
    rw [BitVec.toNat_ofNat]; omega
  rw [hm, hu]
  by_cases h24 : v.natAbs.log2 = 24
  · rw [if_pos h24, h24]
    have : v.natAbs * 2 ^ 23 / 2 ^ 24 * 2 = v.natAbs - v.natAbs % 2 := by omega
    rw [← this]; push_cast; ring
  · rw [if_neg h24, Nat.sub_zero]
    generalize v.natAbs.log2 = k at *
    have hk' : k ≤ 23 := by omega
    have : v.natAbs * 2 ^ 23 / 2 ^ k = v.natAbs * 2 ^ (23 - k) := by
      have h23 : (2:ℕ) ^ 23 = 2 ^ (23 - k) * 2 ^ k := (Nat.pow_sub_mul_pow 2 hk').symm
      apply Nat.div_eq_of_eq_mul_left (by positivity)
      rw [h23, Nat.mul_assoc]
    rw [this]
    have h2 : (2:ℚ) ^ ((k:ℤ) - 23) = 1 / 2 ^ (23 - k) := by
      rw [show ((k:ℤ) - 23) = -((23 - k : ℕ) : ℤ) by omega, zpow_neg, zpow_natCast, one_div]
    rw [h2]; push_cast; field_simp

/-- Sign and absolute value give the integer back. -/
theorem signFactor_abs (v : Int) : (signFactor (Bit.of (v < 0)) : ℚ) * (v.natAbs : ℚ) = v := by
  by_cases h : v < 0
  · rw [(Bit.of_eq_one (v<0)).2 h, signFactor_one]
    have : ((v.natAbs : ℕ) : ℤ) = -v := by omega
    rw [← Int.cast_natCast (R := ℚ) v.natAbs, this]; push_cast; ring
  · rw [(Bit.of_eq_zero (v<0)).2 h, signFactor_zero]
    have : ((v.natAbs : ℕ) : ℤ) = v := by omega
    rw [← Int.cast_natCast (R := ℚ) v.natAbs, this]; push_cast; ring

end Sys2Proof.Machine
end

