-- ==== Sys2Proof/Tests/Slice0.lean ====
section
/-! SUPPORT. The model's own tests: the smoke test of WellFormed, words written out from the spec's encodings, the vectors of
95_test_vectors.md, and a witness for every statement that has hypotheses. -/

namespace Sys2Proof.Tests

open Sys2Proof.Machine

/-- What an instruction drives on the output ports, from the reset state. -/
def outs (i : Instr) : Option Outputs :=
  match exec i State.reset with
  | .next t => some t.outputs
  | .fault _ => none
  | .refused _ => none

/-- What a stage-level evaluation answers, from the reset state. -/
def ans (i : Instr) : Option StageOut :=
  match exec i State.reset with
  | .next t => some t.stage
  | .fault _ => none
  | .refused _ => none

/-- Open parameters with the same carry everywhere and the exponent 77 for a zero magnitude. -/
def withCarry (c : Bit) : OpenParams := { carry := fun _ _ => c, zeroMagExp := fun _ => 77 }

/-- A tuple, written as the spec writes it. -/
def fv (s : Bit) (e m : Word) : FloatValue := { sign := s, exponent := e, mantissa := m }

/-! ### WellFormed: an ill-formed term for each check, and a well-formed one beside it -/

theorem test_wf_align_ok : (Instr.align 0xC00000 127 0x900000 128 0).wellFormed = true := by decide
theorem test_wf_align_xa_wide : (Instr.align 0x1000000 127 0x900000 128 0).wellFormed = false := by decide
theorem test_wf_align_xa_low : (Instr.align 0x7FFFFF 127 0x900000 128 0).wellFormed = false := by decide
theorem test_wf_align_xb_wide : (Instr.align 0xC00000 127 0x1000000 128 0).wellFormed = false := by decide
theorem test_wf_align_xb_low : (Instr.align 0xC00000 127 0x7FFFFF 128 0).wellFormed = false := by decide
theorem test_wf_align_ea : (Instr.align 0xC00000 256 0x900000 128 0).wellFormed = false := by decide
theorem test_wf_align_eb : (Instr.align 0xC00000 127 0x900000 256 0).wellFormed = false := by decide
theorem test_wf_subCarry : (Instr.subCarry 0xC00000 1).wellFormed = true ∧ (Instr.subCarry 0xC00000 0).wellFormed = false := by
  decide
theorem test_wf_pipe : (Instr.pipe (fv 0 255 0x7FFFFF) (fv 1 0 0) 1).wellFormed = true
    ∧ (Instr.pipe (fv 0 256 0) (fv 0 0 0) 0).wellFormed = false
    ∧ (Instr.pipe (fv 0 0 0) (fv 0 0 0x800000) 0).wellFormed = false := by decide
theorem test_wf_faddT : (Instr.faddT (fv 0 0 0x800000) (fv 0 0 0)).wellFormed = false
    ∧ (Instr.faddT (fv 0 0 0) (fv 0 256 0)).wellFormed = false := by decide
theorem test_wf_fsubT : (Instr.fsubT (fv 0 256 0) (fv 0 0 0)).wellFormed = false
    ∧ (Instr.fsubT (fv 0 0 0) (fv 0 0 0x800000)).wellFormed = false := by decide

/-! ### Decoding: words written out bit by bit from R33, R35 and R30 -/

/-- op 00, a = 1.5, b = 2.25 (vector S1). -/
theorem test_decode_fadd : decode (0b00#2 ++ 0b0_01111111_10000000000000000000000#32
    ++ 0b0_10000000_00100000000000000000000#32) = .fadd 0x3FC00000 0x40100000 := by decide
/-- op 01, a = 3.0, b = 5.0 (vector S5). -/
theorem test_decode_fsub : decode (0b01#2 ++ 0b0_10000000_10000000000000000000000#32
    ++ 0b0_10000001_01000000000000000000000#32) = .fsub 0x40400000 0x40A00000 := by decide
/-- op 10, a = -1.0, b = 1.0 (vector E7). -/
theorem test_decode_feq : decode (0b10#2 ++ 0b1_01111111_00000000000000000000000#32
    ++ 0b0_01111111_00000000000000000000000#32) = .feq 0xBF800000 0x3F800000 := by decide
/-- op 11, a = b = 1.0 (vector X1). -/
theorem test_decode_reserved : decode (0b11#2 ++ 0b0_01111111_00000000000000000000000#32
    ++ 0b0_01111111_00000000000000000000000#32) = .reserved 0x3F800000 0x3F800000 := by decide
/-- FCOPY -0.0 is FEQ -0.0, -0.0 (R38, vector E6). -/
theorem test_decode_fcopy : decode (0b10#2 ++ 0b1_00000000_00000000000000000000000#32
    ++ 0b1_00000000_00000000000000000000000#32) = (Instr.fcopy 0x80000000).expand := by decide
/-- The lowest and the highest bit of each field (R33). -/
theorem test_decode_edges : decodeTableWord 72 0x18000000180000001 = some (.fsub 0x80000001 0x80000001)
    ∧ decodeTableWord 72 0x3FFFFFFFFFFFFFFFF = some (.reserved 0xFFFFFFFF 0xFFFFFFFF) := by decide
/-- Bit 66 is no bit of a transaction: rejected by name. -/
theorem test_decode_wider : decodeNumber 0x40000000000000000 = .error .widerThanTx := by decide
theorem test_encode : encode (.fsub 0x40400000 0x40A00000) = some 0x14040000040A00000
    ∧ encode (.fcopy 0x80000000) = some 0x28000000080000000 ∧ encode (.strip 0) = none := by decide

/-! ### Reset and the step -/

/-- The reset ports are vector A20's. -/
theorem test_reset : outs (.fadd 0 0) = some State.reset.outputs := by decide
theorem test_withFetchWord : (State.reset.withFetchWord 72 0x13F8000003F800000).pending
    = [{ op := 1, a := 0x3F800000, b := 0x3F800000 }] := by decide

/-! ### Transactions (95_test_vectors.md) -/

/-- Vector A12: both negative, the accumulator is negative, delta +1. -/
theorem test_fadd_negative : outs (.fadd 0xC0400000 0xC0A00000) =
    some { rSign := 1, rExp := 130, rMan := 0, rBits := 0xC1000000, eq := 0 } := by decide
/-- Vector A14: a lost bit before a cancellation, delta -23. -/
theorem test_fadd_lost_bit : outs (.fadd 0x3F800000 0xBF7FFFFF) =
    some { rSign := 0, rExp := 104, rMan := 0, rBits := 0x34000000, eq := 0 } := by decide
/-- Vector S5: sign recovery in a subtraction. -/
theorem test_fsub_scenario5 : outs (.fsub 0x40400000 0x40A00000) =
    some { rSign := 1, rExp := 128, rMan := 0, rBits := 0xC0000000, eq := 0 } := by decide
/-- Vector B11: a NaN pattern minus itself. -/
theorem test_fsub_cancel : outs (.fsub 0x7FC00000 0x7FC00000) =
    some { rSign := 0, rExp := 0, rMan := 0, rBits := 0, eq := 0 } := by decide
/-- Vector E2: one mantissa bit differs. -/
theorem test_feq_differs : outs (.feq 0x40700000 0x40700001) =
    some { rSign := 0, rExp := 128, rMan := 0x700000, rBits := 0x40700000, eq := 0 } := by decide
/-- Vector E3: +0 and -0 are not equal. -/
theorem test_feq_zeros : outs (.feq 0x00000000 0x80000000) =
    some { rSign := 0, rExp := 0, rMan := 0, rBits := 0, eq := 0 } := by decide
/-- Vector E6. -/
theorem test_fcopy : outs (.fcopy 0x80000000) =
    some { rSign := 1, rExp := 0, rMan := 0, rBits := 0x80000000, eq := 1 } := by decide
/-- Vector X2, column "hardware outputs". -/
theorem test_reserved : outs (.reserved 0xFFFFFFFF 0xFFFFFFFF) =
    some { rSign := 0, rExp := 0, rMan := 0, rBits := 0, eq := 0 } := by decide

/-! ### Stages (95_test_vectors.md) -/

/-- Vector U10. -/
theorem test_unpack : ans (.unpack 0xFFC00001) = some (.value (fv 1 255 0x400001)) := by decide
/-- Vector K14: an exponent of -23 corrupts the sign position. -/
theorem test_pack_negative_exponent : ans (.pack (fv 0 0xFFFFFFE9 0)) = some (.word 0xF4800000) := by decide
/-- Vector K11. -/
theorem test_pack_wide_exponent : ans (.pack (fv 0 257 0x123456)) = some (.word 0x80923456) := by decide
/-- Vector M2. -/
theorem test_withImplicitBit : ans (.withImplicitBit (fv 1 129 0x200000)) = some (.value (fv 1 129 0xA00000)) := by decide
/-- Vectors M7 and M8. -/
theorem test_bitAt : ans (.bitAt (fv 0 128 0x00F00000) 23) = some (.bit 1)
    ∧ ans (.bitAt (fv 0 128 0x00F00000) 24) = some (.bit 0) := by decide
/-- Vector M24: bits above the start index are ignored. -/
theorem test_findMsb_above : ans (.findMsb 0x02000001 24) = some (.msb 1 0) := by decide
/-- Vectors M22 and M23. -/
theorem test_findMsb_edge : ans (.findMsb 0x01FFFFFE 24) = some (.msb 1 24)
    ∧ ans (.findMsb 0x02000000 24) = some (.msb 0 0) := by decide
/-- Vector G7: the first operand is shifted. -/
theorem test_align : ans (.align 0xABCDEF 10 0x800001 22 0) = some (.aligned 0x000ABC 0x800001 22 12 0) := by decide
/-- Vector G8: a distance of 32 leaves 0. -/
theorem test_align_32 : ans (.align 0x800000 90 0x800000 122 0) = some (.aligned 0 0x800000 122 32 0) := by decide
/-- Vector G13, both columns: the second operand is shifted, with each value of the open carry. -/
theorem test_align_carry : (align (withCarry 0) 0x800000 128 0xFFFFFF 127 1).yb = 0x7FFFFF
    ∧ (align (withCarry 1) 0x800000 128 0xFFFFFF 127 1).yb = 0x800000 := by decide
/-- R52 items 4 and 5 (vectors G10 and G11), whatever the open carry is. -/
theorem test_subCarry : ans (.subCarry 0xC00000 1) = some (.bit 0) ∧ ans (.subCarry 0x800000 4) = some (.bit 0) := by decide
/-- Vector N10: the exponent wraps below zero. -/
theorem test_renorm_wrap : ans (.renorm 0x00000001 0) = some (.renormed 0x00800000 0xFFFFFFE9 1) := by decide
/-- Vector N3: delta +1 drops the low bit. -/
theorem test_renorm_carry_out : ans (.renorm 0x01FFFFFF 127) = some (.renormed 0x00FFFFFF 128 1) := by decide
/-- Vectors N1 and N12, column STRIP. -/
theorem test_strip : ans (.strip 0x00F00000) = some (.word 0x700000) ∧ ans (.strip 0) = some (.word 0) := by decide
/-- Vectors T1 and T2. -/
theorem test_tcConvert : ans (.tcConvert 0 0x00600000) = some (.word 0x00600000)
    ∧ ans (.tcConvert 1 0x00A00000) = some (.word 0xFF600000) := by decide
/-- Vector T8. -/
theorem test_sum : ans (.sum 0x00600000 0xFF600000) = some (.word 0xFFC00000) := by decide
/-- Vectors T13 and T17. -/
theorem test_signRecover : ans (.signRecover 0xFFC00000) = some (.signMag 1 0x00400000)
    ∧ ans (.signRecover 0x80000000) = some (.signMag 1 0x80000000) := by decide
/-- R70's worked examples. -/
theorem test_cancelAdd : ans (.cancelAdd 1 0 0x800000 0x800000) = some (.bit 1)
    ∧ ans (.cancelAdd 0 0 0x600000 0x900000) = some (.bit 0) := by decide
/-- Scenario 1's pipeline (R77, worked example). -/
theorem test_pipe : ans (.pipe (fv 0 127 0x400000) (fv 0 128 0x100000) 0)
    = some (.piped 0 128 0x700000 0x600000 0x900000) := by decide
/-- R72's worked examples. -/
theorem test_finalize : ans (.finalize 1 0 99 0) = some (.value (fv 0 0 0))
    ∧ ans (.finalize 0 0 128 0x700000) = some (.value (fv 0 128 0x700000)) := by decide
/-- Vector A6: truncation at delta +1. -/
theorem test_faddT : ans (.faddT (fv 0 127 0x7FFFFF) (fv 0 127 0)) = some (.value (fv 0 128 0x3FFFFF)) := by decide
/-- R80's worked examples. -/
theorem test_cancelSub : ans (.cancelSub (fv 0 127 0) (fv 0 127 0)) = some (.bit 1)
    ∧ ans (.cancelSub (fv 0 128 0x400000) (fv 0 129 0x200000)) = some (.bit 0) := by decide
/-- R81. -/
theorem test_signInvert : ans (.signInvert 0) = some (.bit 1) ∧ ans (.signInvert 1) = some (.bit 0) := by decide
/-- Vectors B8 and B8': both values of the open carry. -/
theorem test_fsubT_carry : fsubT (withCarry 0) (fv 0 127 0) (fv 0 126 1) = fv 0 126 0
    ∧ fsubT (withCarry 1) (fv 0 127 0) (fv 0 126 1) = fv 0 125 0x7FFFFC := by decide
/-- Vector B17': the unflagged zero magnitude of negative operands has sign 0 and the open exponent. -/
theorem test_fsubT_zero_magnitude : fsubT (withCarry 1) (fv 1 128 0) (fv 1 127 0x7FFFFF) = fv 0 77 0 := by decide
/-- R88's worked examples. -/
theorem test_equals : ans (.equals (fv 0 128 0x700000) 0x40700000) = some (.bit 1)
    ∧ ans (.equals (fv 0 256 0) 0x80000000) = some (.bit 0) := by decide

/-! ### Witnesses: a state and operands that meet all the hypotheses of each statement that has some -/

theorem witness_StepRunsTheDecodedTransaction :
    (State.reset.withFetchWord 72 0x13F8000003F800000).pending = { op := 1, a := 0x3F800000, b := 0x3F800000 } :: []
    ∧ State.reset.pending = []
    ∧ decodeTableWord 72 0x13F8000003F800000 = some (.fsub 0x3F800000 0x3F800000) := by decide
theorem witness_StepUsesOneTransaction : ∃ t, step (State.reset.withFetchWord 72 0x13F8000003F800000) = .next t := ⟨_, rfl⟩
theorem witness_StepKeepsPortsAndWiresCoherent :
    ∃ s t, Coherent s ∧ step s = .next t :=
  ⟨State.reset.evaluate { op := 1, a := 0x3F800000, b := 0x40000000 }, _, coherent_evaluate _ _, step_eq _⟩
theorem witness_EveryInstructionKeepsCoherence : ∃ s t u, Coherent s
    ∧ exec (.fsub 0x3F800000 0x40000000) s = .next t ∧ exec (.strip 0x00F00000) s = .next u :=
  ⟨State.reset.evaluate { op := 2, a := 0x3F800000, b := 0x40000000 }, _, _, coherent_evaluate _ _, rfl, rfl⟩
theorem witness_ResetIsCoherentAndInRange : ∃ n, State.reset.internal = some n := ⟨_, rfl⟩
theorem witness_StepKeepsEveryWireInItsRange : ∃ t n, step State.reset = .next t ∧ t.internal = some n :=
  ⟨_, _, rfl, rfl⟩
theorem witness_EqualTriplesGiveEqualOutputs :
    let s := State.reset
    let u := (State.reset.withFetchWord 72 0).answer (.bit 1)
    s ≠ u ∧ s.present.inputs = u.present.inputs ∧ ∃ t v, step s = .next t ∧ step u = .next v :=
  ⟨by decide, by decide, _, _, rfl, rfl⟩
theorem witness_EvaluatingHeldPortsAgainChangesNothing :
    ∃ t, step (State.reset.withFetchWord 72 0x24070000040700001) = .next t ∧ t.pending = [] := ⟨_, rfl, rfl⟩
theorem witness_FaddFlagsExactlyTheNegation : (0xBF800000 : Word) = negWord 0x3F800000 := by decide
/-- Exactly 24 apart: 2^24 and 1.0. -/
theorem witness_FaddKeepsTheLargerOperandAcrossAWideGap :
    (unpack 0x3F800000).exponent.toNat + 24 ≤ (unpack 0x4B800000).exponent.toNat
    ∧ ¬ (unpack 0x3F800000).exponent.toNat + 24 ≤ (unpack 0x4B000000).exponent.toNat := by decide
theorem witness_ResultExponentsStayInTheirRange : InDomain 0x00800000 0x7F7FFFFF
    ∧ ∃ t n, exec (.fsub 0x3FC00000 0x3F800000) State.reset = .next t ∧ t.internal = some n ∧ n.pipe.mag ≠ 0 :=
  ⟨by decide, _, _, rfl, rfl, by decide⟩
/-- 1.5 + 2.25, delta 0 (vector A1). -/
theorem witness_FaddIsExactWhenNoBitIsLost : InDomain 0x3FC00000 0x40100000
    ∧ ∃ t n, exec (.fadd 0x3FC00000 0x40100000) State.reset = .next t ∧ t.internal = some n
      ∧ lostBits (unpack 0x3FC00000) n.pipe.ec.toNat = 0 ∧ lostBits (unpack 0x40100000) n.pipe.ec.toNat = 0
      ∧ (n.pipe.delta = some 1 → n.pipe.mag.toNat % 2 = 0) ∧ NormalExponent t.outputs.rExp :=
  ⟨by decide, _, _, rfl, rfl, by decide, by decide, by decide, by decide⟩
/-- 1.0 + 1.0, delta +1 with an even magnitude (vector A4). -/
theorem witness_FaddIsExactWhenNoBitIsLost_carry_out : InDomain 0x3F800000 0x3F800000
    ∧ ∃ t n, exec (.fadd 0x3F800000 0x3F800000) State.reset = .next t ∧ t.internal = some n
      ∧ lostBits (unpack 0x3F800000) n.pipe.ec.toNat = 0
      ∧ n.pipe.delta = some 1 ∧ n.pipe.mag.toNat % 2 = 0 ∧ NormalExponent t.outputs.rExp :=
  ⟨by decide, _, _, rfl, rfl, by decide, by decide, by decide, by decide⟩
/-- Equal signs (vector A7) and different signs (vector A14). -/
theorem witness_FaddErrorIsBounded :
    (InDomain 0x3F800000 0x34400000 ∧ (unpack 0x3F800000).sign = (unpack 0x34400000).sign
      ∧ ∃ t, exec (.fadd 0x3F800000 0x34400000) State.reset = .next t ∧ NormalExponent t.outputs.rExp)
    ∧ (InDomain 0x3F800000 0xBF7FFFFF ∧ (unpack 0x3F800000).sign ≠ (unpack 0xBF7FFFFF).sign
      ∧ ∃ t, exec (.fadd 0x3F800000 0xBF7FFFFF) State.reset = .next t ∧ NormalExponent t.outputs.rExp) :=
  ⟨⟨by decide, by decide, _, rfl, by decide⟩, ⟨by decide, by decide, _, rfl, by decide⟩⟩
/-- 3.0 and 5.0: unequal exponents with only zeros lost; and the constant carry 0. -/
theorem witness_FsubIsFaddOfTheNegation :
    lostBits (unpack 0x40400000) (commonExponent (unpack 0x40400000) (unpack 0x40A00000)) = 0
    ∧ lostBits (unpack 0x40A00000) (commonExponent (unpack 0x40400000) (unpack 0x40A00000)) = 0
    ∧ (∀ sig d, (withCarry 0).carry sig d = 0) ∧ AtRest (fv 0 255 0x7FFFFF) ∧ AtRest (fv 1 0 0) :=
  ⟨by decide, by decide, fun _ _ => rfl, by decide, by decide⟩
theorem witness_FsubExchangedFlipsTheSign : (0x40400000 : Word) ≠ 0x40A00000
    ∧ lostBits (unpack 0x40400000) (commonExponent (unpack 0x40400000) (unpack 0x40A00000)) = 0
    ∧ lostBits (unpack 0x40A00000) (commonExponent (unpack 0x40400000) (unpack 0x40A00000)) = 0 := by decide
/-- Both orders of the family, with a carry of 1. -/
theorem witness_UnflaggedZeroMagnitudeIsOneFamily :
    AtRest (fv 0 128 0) ∧ AtRest (fv 0 127 0x7FFFFF)
    ∧ (subtractionSignals (withCarry 1) (fv 0 128 0) (fv 0 127 0x7FFFFF)).pipe.mag = 0
    ∧ (subtractionSignals (withCarry 1) (fv 0 128 0) (fv 0 127 0x7FFFFF)).cancel = 0
    ∧ (subtractionSignals (withCarry 1) (fv 1 127 0x7FFFFF) (fv 1 128 0)).pipe.mag = 0
    ∧ (subtractionSignals (withCarry 1) (fv 1 127 0x7FFFFF) (fv 1 128 0)).cancel = 0 := by decide
/-- 3.0 - 5.0 (vector S5), and 1.0 - (-1.0), where delta is +1. -/
theorem witness_FsubIsExactWhenNoBitIsLost :
    (InDomain 0x40400000 0x40A00000 ∧ ∃ t n, exec (.fsub 0x40400000 0x40A00000) State.reset = .next t
      ∧ t.internal = some n ∧ lostBits (unpack 0x40400000) n.pipe.ec.toNat = 0
      ∧ lostBits (unpack 0x40A00000) n.pipe.ec.toNat = 0
      ∧ (n.pipe.delta = some 1 → n.pipe.mag.toNat % 2 = 0) ∧ NormalExponent t.outputs.rExp)
    ∧ (InDomain 0x3F800000 0xBF800000 ∧ ∃ t n, exec (.fsub 0x3F800000 0xBF800000) State.reset = .next t
      ∧ t.internal = some n ∧ lostBits (unpack 0x3F800000) n.pipe.ec.toNat = 0
      ∧ lostBits (unpack 0xBF800000) n.pipe.ec.toNat = 0
      ∧ n.pipe.delta = some 1 ∧ n.pipe.mag.toNat % 2 = 0 ∧ NormalExponent t.outputs.rExp) :=
  ⟨⟨by decide, _, _, rfl, rfl, by decide, by decide, by decide, by decide⟩,
    ⟨by decide, _, _, rfl, rfl, by decide, by decide, by decide, by decide, by decide⟩⟩
theorem witness_TransactionsChangeOnlyPortsAndWires :
    (Instr.fsub 0x40400000 0x40A00000).tx? = some { op := 1, a := 0x40400000, b := 0x40A00000 }
    ∧ ∃ t, exec (.fsub 0x40400000 0x40A00000) State.reset = .next t := ⟨rfl, _, rfl⟩
theorem witness_StageEvaluationsChangeOnlyTheirAnswer :
    (Instr.fsubT (fv 0 128 0) (fv 0 127 1)).tx? = none
    ∧ ∃ t, exec (.fsubT (fv 0 128 0) (fv 0 127 1)) State.reset = .next t := ⟨rfl, _, rfl⟩
/-- The largest tuple at rest, and one just past it. -/
theorem witness_atRest : AtRest (fv 1 255 0x7FFFFF) ∧ ¬ AtRest (fv 1 256 0x7FFFFF) ∧ ¬ AtRest (fv 1 255 0x800000) := by
  decide
theorem witness_PackOrsTheShiftedFields : AtRest (fv 1 254 0x7FFFFF) := by decide
theorem witness_CodecRoundTrips : AtRest (fv 1 255 0x7FFFFF) ∧ ¬ AtRest (fv 0 256 0) := by decide
theorem witness_WithImplicitBitSetsBit23Only : AtRest (fv 0 127 0x7FFFFF) ∧ 23 < 32 ∧ 31 < 32 := by decide
theorem witness_FindMsbFindsTheHighestSetBit :
    (0x02000000 : Word).toNat % 2 ^ ((24 : BitVec 5).toNat + 1) = 0
    ∧ (0x01FFFFFE : Word).toNat % 2 ^ ((24 : BitVec 5).toNat + 1) ≠ 0
    ∧ (0x80000000 : Word).toNat % 2 ^ ((31 : BitVec 5).toNat + 1) ≠ 0 := by decide
/-- The three cases of ALIGN, at the largest distance, at distance 1 and at equal exponents. -/
theorem witness_AlignShiftsTheSmallerExponentOnly :
    ((0 : Word).toNat < (255 : Word).toNat
      ∧ ∃ ya yb ec d c, ans (.align 0x800000 0 0x800000 255 0) = some (.aligned ya yb ec d c) ∧ d.toNat ≤ 255)
    ∧ ((126 : Word).toNat < (127 : Word).toNat
      ∧ ∃ ya yb ec d c, ans (.align 0x800000 127 0xC00000 126 1) = some (.aligned ya yb ec d c) ∧ d.toNat ≤ 255)
    ∧ (∃ ya yb ec d c, ans (.align 0xC00000 127 0xC00000 127 1) = some (.aligned ya yb ec d c)) :=
  ⟨⟨by decide, _, _, _, _, _, rfl, by decide⟩, ⟨by decide, _, _, _, _, _, rfl, by decide⟩, ⟨_, _, _, _, _, rfl⟩⟩
/-- Each operand shifted, at distance 1 and at the largest distance, and equal exponents. -/
theorem witness_AlignLosesLessThanOneUnit :
    (100 : Word).toNat < (101 : Word).toNat ∧ (0 : Word).toNat < (255 : Word).toNat
    ∧ ans (.align 0xFFFFFF 100 0x800000 101 0) = some (.aligned 0x7FFFFF 0x800000 101 1 0)
    ∧ ans (.align 0x800000 255 0xFFFFFF 0 0) = some (.aligned 0x800000 0 255 255 0)
    ∧ ans (.align 0xC00000 127 0xC00000 127 0) = some (.aligned 0xC00000 0xC00000 127 0 0) := by decide
theorem witness_SubCarryIsZeroWhenOnlyZerosAreLost : (0xC00000 : BitVec 24).toNat % 2 ^ (22 : BitVec 8).toNat = 0
    ∧ (0x800000 : BitVec 24).toNat % 2 ^ (23 : BitVec 8).toNat = 0 := by decide
/-- Leading bits 0, 23 and 24. -/
theorem witness_RenormNormalisesTheMagnitude :
    (0 < (1 : Word).toNat ∧ (1 : Word).toNat < 2 ^ 25)
    ∧ (0 < (0x1FFFFFF : Word).toNat ∧ (0x1FFFFFF : Word).toNat < 2 ^ 25)
    ∧ ans (.renorm 1 127) = some (.renormed 0x800000 104 1)
    ∧ ans (.renorm 0xFFFFFF 127) = some (.renormed 0xFFFFFF 127 1)
    ∧ ans (.renorm 0x1FFFFFF 127) = some (.renormed 0xFFFFFF 128 1) := by decide
theorem witness_StripClearsBit23Only : 0x800000 ≤ (0x800000 : Word).toNat ∧ (0xFFFFFF : Word).toNat ≤ 0xFFFFFF := by decide
theorem witness_TcConvertNegatesUnderTheSign : (0xFFFFFF : Word).toNat ≤ 0xFFFFFF ∧ (0 : Word).toNat ≤ 0xFFFFFF := by decide
theorem witness_SumAddsModuloTheWord :
    (0xFF000001 : Word).toInt.natAbs ≤ 0xFFFFFF ∧ (0x00FFFFFF : Word).toInt.natAbs ≤ 0xFFFFFF := by decide
theorem witness_SignRecoverGivesSignAndMagnitude : ans (.signRecover 0) = some (.signMag 0 0) := by decide
theorem witness_AdderBlockComputesTheSignedSum : (0xFFFFFF : Word).toNat ≤ 0xFFFFFF ∧ (0 : Word).toNat ≤ 0xFFFFFF := by decide
theorem witness_CancelSubComparesTheOperands : AtRest (fv 0 127 0) ∧ AtRest (fv 0 127 0x7FFFFF) := by decide
theorem witness_PipeIsItsStagesInOrder : AtRest (fv 0 255 0x7FFFFF) ∧ AtRest (fv 1 0 0) := by decide
theorem witness_TupleAdditionAndSubtractionAreIntegerArithmetic :
    AtRest (fv 0 255 0x7FFFFF) ∧ AtRest (fv 1 0 0) := by decide
theorem witness_EqualsComparesAllThreeFields : 255 < (fv 0 256 0).exponent.toNat ∧ AtRest (fv 0 255 0x7FFFFF) := by decide
theorem witness_TransactionWiresAreTheStagesAnswers :
    (Instr.fadd 1 2 = .fadd 1 2 ∧ (0 : Bit) = 0 ∨ Instr.fadd 1 2 = .fsub 1 2 ∧ (0 : Bit) = 1)
    ∧ (Instr.fsub 1 2 = .fadd 1 2 ∧ (1 : Bit) = 0 ∨ Instr.fsub 1 2 = .fsub 1 2 ∧ (1 : Bit) = 1) := by decide

end Sys2Proof.Tests
end

section
/-! The statements of 10_state.md. -/

namespace Sys2Proof.Machine

/-- Settles O12: the state after a step is one evaluation of the triple presented (`step_inv`), and every port and wire
of an evaluation is a function of its triple alone, so nothing either state held before can show (R18). -/
theorem equalTriplesGiveEqualOutputs : Obligations.EqualTriplesGiveEqualOutputs := by
  intro s u t v htriple hs hu
  obtain rfl := step_inv hs
  obtain rfl := step_inv hu
  rw [htriple]
  refine ⟨?outputs, ?wireA, ?wireB, ?signals, State.evaluate_inputs _ _, State.evaluate_inputs _ _⟩
  case outputs => simp only [State.evaluate_outputs]
  case wireA => simp only [State.evaluate_wireA]
  case wireB => simp only [State.evaluate_wireB]
  case signals => simp only [State.evaluate_internal]

end Sys2Proof.Machine
end

section
/-! The statements of 40_field_codec.md. -/

namespace Sys2Proof.Machine

/-- UNPACK answers the three fields of its word at stage level and touches nothing else (R40). -/
theorem exec_unpack (w : Word) (s : State) : exec (.unpack w) s = .next (s.answer (.value (unpack w))) := rfl

/-- Settles O35: the fields of `unpack w` are the quotient by 2^31, the quotient by 2^23 modulo 2^8 and the remainder
modulo 2^23 of the word (R40). -/
theorem unpackCutsTheThreeFields : Obligations.UnpackCutsTheThreeFields := by
  intro w s
  exact ⟨unpack w, exec_unpack w s, unpack_sign_toNat w, unpack_exponent_toNat w, unpack_mantissa_toNat w⟩

end Sys2Proof.Machine
end

section
/-! The statements of 41_mantissa_utilities.md. -/

namespace Sys2Proof.Machine

/-- WITH_IMPLICIT_BIT answers the tuple with its implicit bit at stage level and touches nothing else (R45). -/
theorem exec_withImplicitBit (f : FloatValue) (s : State) :
    exec (.withImplicitBit f) s = .next (s.answer (.value (withImplicitBit f))) := rfl

@[simp] theorem withImplicitBit_sign (f : FloatValue) : (withImplicitBit f).sign = f.sign := rfl

@[simp] theorem withImplicitBit_exponent (f : FloatValue) : (withImplicitBit f).exponent = f.exponent := rfl

/-- The mask of R45 is the one bit at IMPLICIT_BIT, so ORing it in can set no other bit of the mantissa. -/
theorem withImplicitBit_mantissa (f : FloatValue) :
    (withImplicitBit f).mantissa = f.mantissa ||| BitVec.twoPow 32 Config.implicitBit := rfl

theorem withImplicitBit_getLsbD (f : FloatValue) (k : Nat) :
    (withImplicitBit f).mantissa.getLsbD k = (decide (k = 23) || f.mantissa.getLsbD k) := by
  have hmask : (BitVec.twoPow 32 Config.implicitBit).getLsbD k = decide (k = 23) := by
    simp [BitVec.getLsbD_twoPow, Config.implicitBit, eq_comm]
  rw [withImplicitBit_mantissa, BitVec.getLsbD_or, hmask, Bool.or_comm]

/-- Settles O38: bit by bit the answer's mantissa is the operand's with bit 23 set (`withImplicitBit_getLsbD`); at rest
bit 23 was clear, so setting it adds 2^23 (`implicit_toNat`). -/
theorem withImplicitBitSetsBit23Only : Obligations.WithImplicitBitSetsBit23Only := by
  intro f s
  refine ⟨withImplicitBit f, exec_withImplicitBit f s, withImplicitBit_sign f, withImplicitBit_exponent f, ?bits, ?atRest⟩
  case bits => exact fun k _ => withImplicitBit_getLsbD f k
  case atRest => exact fun h => implicit_toNat h

end Sys2Proof.Machine
end

section
/-! The statements of 43_twos_complement_adder.md. -/

namespace Sys2Proof.Machine

/-- TC_CONVERT answers the converted significand at stage level and touches nothing else (R60). -/
theorem exec_tcConvert (sg : Bit) (y : Word) (s : State) :
    exec (.tcConvert sg y) s = .next (s.answer (.word (tcConvert sg y))) := rfl

@[simp] theorem tcConvert_zero (y : Word) : tcConvert 0 y = y := rfl

@[simp] theorem tcConvert_one (y : Word) : tcConvert 1 y = -y := neg32_eq_neg y

/-- Settles O46: sign 0 passes the significand through and sign 1 negates it as a word, which is negation modulo 2^32
(`tcConvert_zero`, `tcConvert_one`); below 2^24 the word reads as the signed integer (`tcConvert_toInt`). -/
theorem tcConvertNegatesUnderTheSign : Obligations.TcConvertNegatesUnderTheSign := by
  intro sg y s
  refine ⟨tcConvert sg y, exec_tcConvert sg y s, ?positive, ?negative, ?signedReading⟩
  case positive => rintro rfl; exact tcConvert_zero y
  case negative => rintro rfl; rw [tcConvert_one, BitVec.toNat_neg]
  case signedReading => exact fun hy => tcConvert_toInt sg hy

/-- SIGN_RECOVER answers the sign and the magnitude at stage level and touches nothing else (R62). -/
theorem exec_signRecover (acc : Word) (s : State) :
    exec (.signRecover acc) s = .next (s.answer (.signMag (signRecover acc).rs (signRecover acc).mag)) := rfl

@[simp] theorem signRecover_zero : signRecover 0 = { rs := 0, mag := 0 } := by decide

/-- Settles O48: the sign and the magnitude are those of the accumulator read as an integer (`signRecover_spec`), and
that reading is negative exactly when bit 31 is set (`getLsbD_31_iff`). -/
theorem signRecoverGivesSignAndMagnitude : Obligations.SignRecoverGivesSignAndMagnitude := by
  intro acc s
  obtain ⟨hsign, hmag⟩ := signRecover_spec acc
  refine ⟨(signRecover acc).rs, (signRecover acc).mag, exec_signRecover acc s, ?bit31, hsign, hmag, ?zero⟩
  case bit31 => exact hsign.trans (getLsbD_31_iff acc).symm
  case zero => rintro rfl; simp only [signRecover_zero, and_self]

end Sys2Proof.Machine
end

section
/-! The statements of 44_addition.md. -/

namespace Sys2Proof.Machine

/-- FINALIZE answers the finished tuple at stage level and touches nothing else (R72). -/
theorem exec_finalize (cancel rs : Bit) (ne frac : Word) (s : State) :
    exec (.finalize cancel rs ne frac) s = .next (s.answer (.value (finalize cancel rs ne frac))) := rfl

@[simp] theorem finalize_one (rs : Bit) (ne frac : Word) :
    finalize 1 rs ne frac = { sign := 0, exponent := 0, mantissa := 0 } := rfl

@[simp] theorem finalize_zero (rs : Bit) (ne frac : Word) :
    finalize 0 rs ne frac = { sign := rs, exponent := ne, mantissa := frac } := rfl

/-- Settles O53: FINALIZE answers `finalize` of its operands (`exec_finalize`), which is the exact-zero tuple under the
flag, whatever the pipeline computed (`finalize_one`), and the pipeline's own fields without it (`finalize_zero`). -/
theorem finalizeOverridesOnCancellation : Obligations.FinalizeOverridesOnCancellation := by
  intro rs ne frac s
  refine ⟨?flagged, ?unflagged⟩
  case flagged => rw [exec_finalize, finalize_one, State.answer]
  case unflagged => rw [exec_finalize, finalize_zero, State.answer]

end Sys2Proof.Machine
end

section
/-! The statements of 45_subtraction.md. -/

namespace Sys2Proof.Machine

/-- SIGN_INVERT answers the inverted sign at stage level and touches nothing else (R81). -/
theorem exec_signInvert (sb : Bit) (s : State) :
    exec (.signInvert sb) s = .next (s.answer (.bit (signInvert sb))) := rfl

@[simp] theorem signInvert_zero : signInvert 0 = 1 := by decide

@[simp] theorem signInvert_one : signInvert 1 = 0 := by decide

/-- The pipeline's effective sign is the sign of the second operand it is given (R71). -/
@[simp] theorem pipe_sbEff (p : OpenParams) (x y : FloatValue) (comp : Bit) : (pipe p x y comp).sbEff = y.sign := rfl

/-- The pipeline converts the aligned second significand under its effective sign (R71, R82). -/
theorem pipe_tb (p : OpenParams) (x y : FloatValue) (comp : Bit) :
    (pipe p x y comp).tb = tcConvert (pipe p x y comp).sbEff (pipe p x y comp).yb := rfl

theorem signals_fadd (p : OpenParams) (a b : Word) :
    signals p { op := 0, a := a, b := b } = some (additionSignals p (unpack a) (unpack b)) := rfl

theorem signals_fsub (p : OpenParams) (a b : Word) :
    signals p { op := 1, a := a, b := b } = some (subtractionSignals p (unpack a) (unpack b)) := rfl

/-- Addition runs the pipeline on the second operand as it arrives (R73). -/
theorem additionSignals_pipe (p : OpenParams) (x y : FloatValue) : (additionSignals p x y).pipe = pipe p x y 0 := rfl

/-- Subtraction runs the pipeline on the second operand with its sign inverted (R82). -/
theorem subtractionSignals_pipe (p : OpenParams) (x y : FloatValue) :
    (subtractionSignals p x y).pipe = pipe p x (negValue y) 1 := rfl

/-- The pipeline's run is unchanged when the second operand is written with the effective sign, for the operand it is
given carries that sign already. -/
theorem pipe_of_sbEff (p : OpenParams) (x y z : FloatValue) (comp : Bit) (h : z = { y with sign := z.sign }) :
    pipe p x z comp = pipe p x { y with sign := (pipe p x z comp).sbEff } comp := by
  rw [pipe_sbEff, ← h]

/-- Settles O52: both transactions are one evaluation of their triple (`exec_of_tx?`), which drives the port b and the
operand wire as they arrive; the pipeline is given `negValue` of the second operand in FSUB
(`subtractionSignals_pipe`) and the operand itself in FADD (`additionSignals_pipe`), so its effective sign, the one
TC_CONVERT uses (`pipe_tb`), is inverted in the first alone. -/
theorem signInvertExchangesTheSigns : Obligations.SignInvertExchangesTheSigns := by
  refine ⟨fun s => ⟨?zero, ?one⟩, fun a b s => ?fsub, fun a b s => ?fadd⟩
  case zero => rw [exec_signInvert, signInvert_zero, State.answer]
  case one => rw [exec_signInvert, signInvert_one, State.answer]
  case fsub =>
    refine ⟨_, _, exec_of_tx? s rfl, signals_fsub Config.params a b, ?_⟩
    rw [subtractionSignals_pipe]
    exact ⟨pipe_sbEff .., pipe_of_sbEff _ _ (unpack b) _ _ rfl, pipe_tb .., rfl, State.evaluate_wireB ..⟩
  case fadd =>
    refine ⟨_, _, exec_of_tx? s rfl, signals_fadd Config.params a b, ?_⟩
    rw [additionSignals_pipe]
    exact ⟨pipe_sbEff .., pipe_of_sbEff _ _ (unpack b) _ _ rfl, pipe_tb .., rfl, State.evaluate_wireB ..⟩

end Sys2Proof.Machine
end

section
/-! The statements of 30_encoding.md. -/

namespace Sys2Proof

/-- Encoding what a triple decodes to gives the triple's word: no triple is decoded to an instruction of another one
(R33, R35). -/
theorem encode_decode (t : Tx) : encode t.decode = some t.word := by
  rw [encode, Tx.decode_tx?, Option.map_some]

/-- An instruction that a triple evaluates is encoded as the triple's word, which decodes to the core instruction it
stands for (R35, R38). -/
theorem decode_encode_of_tx? {i : Instr} {t : Tx} (h : i.tx? = some t) :
    ∃ w, encode i = some w ∧ decode w = i.expand := by
  refine ⟨t.word, ?encoded, ?decoded⟩
  case encoded => rw [encode, h, Option.map_some]
  case decoded => rw [decode_word, Tx.decode_of_tx? h]

/-- Settles O1: each of the five instructions is evaluated by a triple, so its word decodes to the core instruction it
stands for (`decode_encode_of_tx?`), which is FEQ a, a for FCOPY and the instruction itself for the others. -/
theorem encodeThenDecodeGivesTheInstruction : Obligations.EncodeThenDecodeGivesTheInstruction := by
  refine ⟨fun a b => ?fadd, fun a b => ?fsub, fun a b => ?feq, fun a b => ?reserved, fun a => ?fcopy⟩
  case fadd => exact decode_encode_of_tx? (i := .fadd a b) rfl
  case fsub => exact decode_encode_of_tx? (i := .fsub a b) rfl
  case feq => exact decode_encode_of_tx? (i := .feq a b) rfl
  case reserved => exact decode_encode_of_tx? (i := .reserved a b) rfl
  case fcopy => exact decode_encode_of_tx? (i := .fcopy a) rfl

/-- Settles O2: the fields of the word form a triple, whose decoding is encoded as the triple's word (`encode_decode`),
and that word is the one the fields were cut from (`Tx.word_ofWord`). -/
theorem decodeThenEncodeGivesTheWord : Obligations.DecodeThenEncodeGivesTheWord := by
  intro w
  rw [decode, encode_decode, Tx.word_ofWord]

theorem Tx.ofWord_op_toNat (w : TxWord) : (Tx.ofWord w).op.toNat = w.toNat / 2 ^ 64 := by
  have hw := w.isLt
  rw [Tx.ofWord, BitVec.extractLsb'_toNat, Nat.shiftRight_eq_div_pow]
  exact Nat.mod_eq_of_lt (by omega)

theorem Tx.ofWord_a_toNat (w : TxWord) : (Tx.ofWord w).a.toNat = w.toNat / 2 ^ 32 % 2 ^ 32 := by
  rw [Tx.ofWord, BitVec.extractLsb'_toNat, Nat.shiftRight_eq_div_pow]

theorem Tx.ofWord_b_toNat (w : TxWord) : (Tx.ofWord w).b.toNat = w.toNat % 2 ^ 32 := by
  rw [Tx.ofWord, BitVec.extractLsb'_toNat, Nat.shiftRight_zero]

/-- Settles O3: a field is the word shifted to the field's place and cut to its width (R33); for `op` the cut takes
nothing away, as the word is below 2^66. -/
theorem transactionFieldsStandAtTheirBits : Obligations.TransactionFieldsStandAtTheirBits :=
  fun w => ⟨Tx.ofWord_op_toNat w, Tx.ofWord_a_toNat w, Tx.ofWord_b_toNat w⟩

/-- Settles O4: closed numbers, so the decoder evaluates to the instruction each names, and to a rejection for the
number with bit 66 set. -/
theorem writtenOutWordsDecode : Obligations.WrittenOutWordsDecode := by
  refine ⟨?S1, ?S5, ?E1, ?X1, ?bit66⟩
  case S1 => rfl
  case S5 => rfl
  case E1 => rfl
  case X1 => rfl
  case bit66 => rfl

end Sys2Proof
end

section
/-! The statements of 10_state.md and 70_reset_and_hazards.md about a step and about every instruction. -/

namespace Sys2Proof.Machine

/-- A step executes what the word of the presented triple decodes to. -/
theorem step_eq_exec (s : State) : step s = exec (decode s.present.inputs.word) s.present := rfl

/-- Presenting the word that `withFetchWord` placed puts it on the ports and leaves the rest of the state as it was. -/
theorem State.present_withFetchWord (s : State) (nbits w : Nat) :
    (s.withFetchWord nbits w).present = { s with inputs := Tx.ofWord (BitVec.ofNat 66 (w % 2 ^ nbits)) } := rfl

/-- Settles O5: a step executes the decoding of the word presented (`step_eq_exec`), and what is presented is the head
of the list, the held ports, or the word `withFetchWord` placed. -/
theorem stepRunsTheDecodedTransaction : Obligations.StepRunsTheDecodedTransaction := by
  refine ⟨fun s t rest hlist => ?listed, fun s hempty => ?held, fun s nbits w i hdecoded => ?placed⟩
  case listed => rw [step_eq_exec, State.present_of_cons s t hlist]
  case held => rw [step_eq_exec, State.present_of_nil s hempty]
  case placed =>
    rw [step_eq_exec, State.present_withFetchWord, Tx.word_ofWord, (decodeTableWord_eq hdecoded).1]

/-- Settles O6: a step is one evaluation of the triple presented (`step_eq`), which has a next state. -/
theorem everyStepCompletes : Obligations.EveryStepCompletes :=
  fun s => ⟨_, step_eq s⟩

/-- Settles O7: an evaluation changes neither the list nor the stage-level answer, so of them a step changes only what
presenting changes: the head of the list goes to the ports. -/
theorem stepUsesOneTransaction : Obligations.StepUsesOneTransaction := by
  intro s t hstep
  obtain rfl := step_inv hstep
  refine ⟨?pending, ?inputs, ?stage⟩
  case pending => rw [State.evaluate_pending, State.present_pending]
  case inputs => rw [State.evaluate_inputs, State.present_inputs]
  case stage => rw [State.evaluate_stage, State.present_stage]

/-- Settles O8: a step is one evaluation of the triple presented (`step_inv`), and an evaluation makes all ports and
wires anew from its triple (`coherent_evaluate`). -/
theorem stepKeepsPortsAndWiresCoherent : Obligations.StepKeepsPortsAndWiresCoherent := by
  intro s t _ hstep
  rw [step_inv hstep]
  exact coherent_evaluate _ _

/-- Settles O9: an instruction that a triple evaluates makes all ports and wires anew from the triple
(`coherent_evaluate`); a stage-level evaluation touches none of them (`exec_stage_frame`, `coherent_answer`). -/
theorem everyInstructionKeepsCoherence : Obligations.EveryInstructionKeepsCoherence := by
  intro i s t hs hexec
  cases htx : i.tx? with
  | some x =>
    rw [exec_of_tx? s htx] at hexec
    cases hexec
    exact coherent_evaluate s x
  | none =>
    rw [exec_stage_frame htx hexec]
    exact coherent_answer _ hs

/-- The pipeline's signals of every triple are in range: they are a pipeline's run on unpacked operands, which are at
rest. -/
theorem signals_inRange (p : OpenParams) (x : Tx) {n : Internal} (h : signals p x = some n) : WiresInRange n := by
  obtain ⟨op, a, b⟩ := x
  have ha := atRest_unpack a
  have hb := atRest_unpack b
  rcases op_cases op with rfl | rfl | rfl | rfl
  · cases h; exact pipe_inRange p _ 0 ha hb
  · cases h; exact pipe_inRange p _ 1 ha (atRest_negValue hb)
  · cases h
  · cases h

/-- A finished result's fraction is the exact zero or the pipeline's, so it has 23 bits. -/
theorem Internal.result_mantissa_le {n : Internal} (h : WiresInRange n) : n.result.mantissa.toNat ≤ 0x7FFFFF := by
  rw [Internal.result]
  rcases bit_cases n.cancel with hc | hc <;> rw [hc]
  · rw [finalize_zero]; exact h.frac
  · rw [finalize_one]; decide

/-- The result R15 drives has a fraction of 23 bits, whatever the triple. -/
theorem topLevel_mantissa_le (p : OpenParams) (x : Tx) : (topLevel p x).1.mantissa.toNat ≤ 0x7FFFFF := by
  obtain ⟨op, a, b⟩ := x
  rcases op_cases op with rfl | rfl | rfl | rfl
  · exact Internal.result_mantissa_le (signals_inRange p { op := 0, a := a, b := b } rfl)
  · exact Internal.result_mantissa_le (signals_inRange p { op := 1, a := a, b := b } rfl)
  · exact (atRest_unpack a).2
  · exact Nat.zero_le _

/-- Settles O11: a step is one evaluation of the triple presented, whose signals are in range (`signals_inRange`) and
whose result has a 23-bit fraction (`topLevel_mantissa_le`). -/
theorem stepKeepsEveryWireInItsRange : Obligations.StepKeepsEveryWireInItsRange := by
  intro s t hstep
  obtain rfl := step_inv hstep
  exact ⟨fun n hn => signals_inRange _ _ hn, topLevel_mantissa_le _ _⟩

/-- The state at reset is one evaluation of the triple on its ports, as R19 asks; no open parameter takes part in it. -/
theorem reset_evaluate : State.reset.evaluate State.reset.inputs = State.reset := by
  decide

/-- Settles O10: the state at reset is itself an evaluation (`reset_evaluate`), so it is coherent and in range like
every evaluation. -/
theorem resetIsCoherentAndInRange : Obligations.ResetIsCoherentAndInRange := by
  have hcoherent := coherent_evaluate State.reset State.reset.inputs
  have hsignals := State.evaluate_internal State.reset State.reset.inputs
  rw [reset_evaluate] at hcoherent hsignals
  exact ⟨hcoherent, fun n hn => signals_inRange _ _ (hsignals ▸ hn)⟩

/-- Evaluating a triple twice is evaluating it once: an evaluation reads nothing an evaluation changes (R22). -/
theorem State.evaluate_evaluate (s : State) (x : Tx) : (s.evaluate x).evaluate x = s.evaluate x := rfl

/-- Settles O13: a step leaves the triple it evaluated on the ports; with an empty list the next step evaluates that
triple again, which changes nothing (`State.evaluate_evaluate`). -/
theorem evaluatingHeldPortsAgainChangesNothing : Obligations.EvaluatingHeldPortsAgainChangesNothing := by
  intro s t hstep hempty
  rw [step_eq, State.present_of_nil t hempty]
  obtain rfl := step_inv hstep
  rw [State.evaluate_inputs, State.evaluate_evaluate]

end Sys2Proof.Machine
end

section
/-! The statements of 46_equality.md and the frames of 10_state.md: the copy, the reserved code, and what an
instruction leaves unchanged. -/

namespace Sys2Proof.Machine

/-- Settles O33: an instruction that a triple evaluates answers the evaluation of that triple and nothing else
(`exec_of_tx?`), which puts the triple on the ports and keeps the list and the stage-level answer. -/
theorem transactionsChangeOnlyPortsAndWires : Obligations.TransactionsChangeOnlyPortsAndWires := by
  intro i x s t htx hexec
  rw [exec_of_tx? s htx] at hexec
  cases hexec
  exact ⟨State.evaluate_inputs s x, State.evaluate_wireA s x, State.evaluate_wireB s x, State.evaluate_pending s x,
    State.evaluate_stage s x⟩

/-- Settles O34: an instruction that no triple evaluates records its answer alone (`exec_stage_frame`). -/
theorem stageEvaluationsChangeOnlyTheirAnswer : Obligations.StageEvaluationsChangeOnlyTheirAnswer :=
  fun _ _ _ htx hexec => exec_stage_frame htx hexec

/-- FEQ is one evaluation of its triple (R89). -/
theorem exec_feq (a b : Word) (s : State) :
    exec (.feq a b) s = .next (s.evaluate { op := 2, a := a, b := b }) := exec_of_tx? s rfl

/-- FCOPY is one evaluation of FEQ's triple of its word with itself (R38). -/
theorem exec_fcopy (a : Word) (s : State) :
    exec (.fcopy a) s = .next (s.evaluate { op := 2, a := a, b := a }) := exec_of_tx? s rfl

/-- The reserved code is one evaluation of its triple (R36, log 6). -/
theorem exec_reserved (a b : Word) (s : State) :
    exec (.reserved a b) s = .next (s.evaluate { op := 3, a := a, b := b }) := exec_of_tx? s rfl

/-- FEQ drives the fields of port a, the word itself, and the comparison of the two words (R89). -/
theorem evaluate_feq_outputs (s : State) (a b : Word) : (s.evaluate { op := 2, a := a, b := b }).outputs =
    { rSign := (unpack a).sign, rExp := (unpack a).exponent, rMan := (unpack a).mantissa, rBits := a
      eq := equals (unpack a) b } := by
  show outputsOf (unpack a) (equals (unpack a) b) = _
  rw [outputsOf, pack_unpack]

/-- The exact-zero tuple on the output ports, with its packed word and no equality (R14, R36, R72). -/
theorem outputsOf_zero :
    outputsOf FloatValue.zero 0 = { rSign := 0, rExp := 0, rMan := 0, rBits := 0, eq := 0 } := by decide

/-- Settles O30: FEQ drives the unpacked word of port a (`evaluate_feq_outputs`), whose fields are the quotients and the
remainder of R40; EQUALS of an unpacked word is equality of words (`equals_unpack`). -/
theorem feqComparesTheWordsAndCopiesTheFirst : Obligations.FeqComparesTheWordsAndCopiesTheFirst := by
  intro a b s
  refine ⟨_, exec_feq a b s, ?_⟩
  rw [evaluate_feq_outputs]
  exact ⟨unpack_sign_toNat a, unpack_exponent_toNat a, unpack_mantissa_toNat a, rfl, equals_unpack a b,
    State.evaluate_internal .., State.evaluate_inputs .., State.evaluate_pending .., State.evaluate_stage ..⟩

/-- Settles O31: FCOPY and FEQ of the word with itself are the same evaluation (`exec_fcopy`, `exec_feq`), which copies
the word and finds it equal to itself (`equals_unpack`). -/
theorem fcopyCopiesAndReportsEquality : Obligations.FcopyCopiesAndReportsEquality := by
  intro a s
  refine ⟨_, exec_fcopy a s, exec_feq a a s, ?_⟩
  rw [evaluate_feq_outputs]
  exact ⟨rfl, (equals_unpack a a).2 rfl⟩

/-- Settles O32: op 11 is one evaluation of its triple, whose result is the exact-zero tuple (`outputsOf_zero`) and
which has no signals. -/
theorem reservedCodeDrivesZeros : Obligations.ReservedCodeDrivesZeros := by
  intro a b s
  exact ⟨_, exec_reserved a b s, outputsOf_zero, State.evaluate_internal .., State.evaluate_inputs ..,
    State.evaluate_pending .., State.evaluate_stage ..⟩

end Sys2Proof.Machine
end

section
/-! More statements of 40_field_codec.md, and EQUALS of 46_equality.md. -/

namespace Sys2Proof.Machine

/-- PACK answers the packed word at stage level and touches nothing else (R41). -/
theorem exec_pack (f : FloatValue) (s : State) : exec (.pack f) s = .next (s.answer (.word (pack f))) := rfl

/-- Settles O36: the packed word as an OR of numbers (`pack_toNat`); at rest the fields do not overlap, and the OR is
their sum (`pack_toNat_of_atRest`). -/
theorem packOrsTheShiftedFields : Obligations.PackOrsTheShiftedFields :=
  fun f s => ⟨pack f, exec_pack f s, pack_toNat f, pack_toNat_of_atRest⟩

/-- A tuple survives packing and unpacking exactly when it is at rest: what UNPACK gives is always at rest (R43). -/
theorem unpack_pack_eq_iff (f : FloatValue) : unpack (pack f) = f ↔ AtRest f :=
  ⟨fun h => h ▸ atRest_unpack (pack f), unpack_pack⟩

/-- Settles O37: the round trip from a word (`pack_unpack`) and the one from a tuple (`unpack_pack_eq_iff`), through the
stage-level evaluations of both operations. -/
theorem codecRoundTrips : Obligations.CodecRoundTrips := by
  refine ⟨fun w s => ⟨unpack w, exec_unpack w s, ?fromWord⟩,
    fun f s => ⟨pack f, unpack (pack f), exec_pack f s, exec_unpack (pack f) s, unpack_pack_eq_iff f⟩⟩
  case fromWord => rw [exec_pack, pack_unpack, State.answer]

/-- EQUALS answers its comparison at stage level and touches nothing else (R88). -/
theorem exec_equals (f : FloatValue) (n : Word) (s : State) :
    exec (.equals f n) s = .next (s.answer (.bit (equals f n))) := rfl

/-- EQUALS is equality of the tuple with the unpacked word (R88). -/
theorem equals_eq_one_iff (f : FloatValue) (n : Word) : equals f n = 1 ↔ f = unpack n := by
  rw [equals, Bit.of_eq_one]
  constructor
  · rintro ⟨hs, he, hm⟩
    exact FloatValue.ext_toNat hs (congrArg BitVec.toNat he) (congrArg BitVec.toNat hm)
  · rintro rfl
    exact ⟨rfl, rfl, rfl⟩

/-- A tuple is the unpacked word exactly when its fields are the word's three pieces as numbers (R40). -/
theorem eq_unpack_iff (f : FloatValue) (n : Word) : f = unpack n ↔ f.sign.toNat = n.toNat / 2 ^ 31
    ∧ f.exponent.toNat = n.toNat / 2 ^ 23 % 2 ^ 8 ∧ f.mantissa.toNat = n.toNat % 2 ^ 23 := by
  rw [← unpack_sign_toNat, ← unpack_exponent_toNat, ← unpack_mantissa_toNat]
  constructor
  · rintro rfl
    exact ⟨rfl, rfl, rfl⟩
  · rintro ⟨hs, he, hm⟩
    exact FloatValue.ext_toNat (BitVec.eq_of_toNat_eq hs) he hm

/-- An at-rest tuple is the unpacked word exactly when it packs to the word (R42, R43). -/
theorem eq_unpack_iff_pack_eq {f : FloatValue} (h : AtRest f) (n : Word) : f = unpack n ↔ pack f = n := by
  constructor
  · rintro rfl
    exact pack_unpack n
  · rintro rfl
    exact (unpack_pack h).symm

/-- Settles O57: EQUALS is equality with the unpacked word (`equals_eq_one_iff`), whose fields are numbers of 1, 8 and
23 bits; so an exponent above 255 equals none, and at rest it is equality of the packed words. -/
theorem equalsComparesAllThreeFields : Obligations.EqualsComparesAllThreeFields := by
  intro f n s
  refine ⟨equals f n, exec_equals f n s, ?fields, ?wide, ?atRest⟩
  case fields => rw [equals_eq_one_iff, eq_unpack_iff]
  case wide =>
    intro hwide
    rw [← bit_ne_one, Ne, equals_eq_one_iff]
    rintro rfl
    have hrest := (atRest_unpack n).1
    omega
  case atRest =>
    intro hrest
    rw [equals_eq_one_iff, eq_unpack_iff_pack_eq hrest, exec_pack]
    constructor
    · rintro rfl; rfl
    · intro hexec
      simpa only [State.answer, Host.Outcome.next.injEq, State.mk.injEq, StageOut.word.injEq, true_and] using hexec

end Sys2Proof.Machine
end

section
/-! More statements of 41_mantissa_utilities.md. -/

namespace Sys2Proof.Machine

/-- BIT_AT answers the bit at stage level and touches nothing else (R46). -/
theorem exec_bitAt (f : FloatValue) (i : BitVec 5) (s : State) :
    exec (.bitAt f i) s = .next (s.answer (.bit (bitAt f i))) := rfl

/-- Settles O39: the bit at an index is the quotient by its power of two modulo 2 (`bitAt_toNat`). -/
theorem bitAtReadsTheNamedBit : Obligations.BitAtReadsTheNamedBit :=
  fun f i s => ⟨bitAt f i, exec_bitAt f i s, bitAt_toNat f i⟩

/-- FIND_MSB answers the search's result at stage level and touches nothing else (R47). -/
theorem exec_findMsb (m : Word) (start : BitVec 5) (s : State) :
    exec (.findMsb m start) s = .next (s.answer (.msb (findMsb m start).found (findMsb m start).idx)) := rfl

/-- Settles O40: the scan from the start index looks at the bits at and below it alone and stops at the highest one set
(`scanMsb_spec`); an index the scan stops at is below 32, so five bits hold it. -/
theorem findMsbFindsTheHighestSetBit : Obligations.FindMsbFindsTheHighestSetBit := by
  intro m start s
  obtain ⟨hnone, hsome⟩ := scanMsb_spec m start.toNat start.isLt
  refine ⟨(findMsb m start).found, (findMsb m start).idx, exec_findMsb m start s, ?none, ?some⟩
  case none =>
    intro hzero
    rw [findMsb, hnone hzero]
    exact ⟨rfl, rfl⟩
  case some =>
    intro hset
    obtain ⟨k, hk, hscan, hlow, hhigh⟩ := hsome hset
    have hidx : (BitVec.ofNat 5 k).toNat = k := Nat.mod_eq_of_lt (lt_of_le_of_lt hk start.isLt)
    rw [findMsb, hscan]
    simp only [hidx]
    exact ⟨trivial, hlow, hhigh⟩

end Sys2Proof.Machine
end

section
/-! The statements of 42_align_normalize.md. -/

namespace Sys2Proof.Machine

/-- ALIGN answers its five wires at stage level and touches nothing else (R50). -/
theorem exec_align (xa ea xb eb : Word) (comp : Bit) (s : State) :
    exec (.align xa ea xb eb comp) s =
      .next (s.answer (.aligned (align Config.params xa ea xb eb comp).ya (align Config.params xa ea xb eb comp).yb
        (align Config.params xa ea xb eb comp).ec (align Config.params xa ea xb eb comp).d
        (align Config.params xa ea xb eb comp).c)) := rfl

/-- SUB_CARRY answers the carry at stage level and touches nothing else (R52). -/
theorem exec_subCarry (sig : BitVec 24) (d : BitVec 8) (s : State) :
    exec (.subCarry sig d) s = .next (s.answer (.bit (subCarry Config.params sig d.toNat))) := rfl

/-- RENORM answers the normalised magnitude, the exponent and `found` at stage level and touches nothing else (R53). -/
theorem exec_renorm (mag ec : Word) (s : State) :
    exec (.renorm mag ec) s = .next (s.answer (.renormed (renorm Config.params mag ec).nmag
      (renorm Config.params mag ec).ne (renorm Config.params mag ec).found)) := rfl

/-- STRIP answers the fraction at stage level and touches nothing else (R55). -/
theorem exec_strip (nmag : Word) (s : State) : exec (.strip nmag) s = .next (s.answer (.word (strip nmag))) := rfl

/-- ALIGN when the first operand has the smaller exponent: it alone moves (R50). -/
theorem align_of_lt (p : OpenParams) (xa xb : Word) {ea eb : Word} (comp : Bit) (h : ea.toNat < eb.toNat) :
    (align p xa ea xb eb comp).ec = eb ∧ (align p xa ea xb eb comp).d.toNat = eb.toNat - ea.toNat
    ∧ (align p xa ea xb eb comp).yb = xb
    ∧ (align p xa ea xb eb comp).c = alignCarry p xa (align p xa ea xb eb comp).d comp
    ∧ (align p xa ea xb eb comp).ya.toNat
        = xa.toNat / 2 ^ (eb.toNat - ea.toNat) + (align p xa ea xb eb comp).c.toNat := by
  rcases align_cases p xa ea xb eb comp with ⟨-, hcase⟩ | ⟨hgt, -⟩ | ⟨rfl, -⟩
  · exact hcase
  · omega
  · omega

/-- ALIGN when the second operand has the smaller exponent: it alone moves (R50). -/
theorem align_of_gt (p : OpenParams) (xa xb : Word) {ea eb : Word} (comp : Bit) (h : eb.toNat < ea.toNat) :
    (align p xa ea xb eb comp).ec = ea ∧ (align p xa ea xb eb comp).d.toNat = ea.toNat - eb.toNat
    ∧ (align p xa ea xb eb comp).ya = xa
    ∧ (align p xa ea xb eb comp).c = alignCarry p xb (align p xa ea xb eb comp).d comp
    ∧ (align p xa ea xb eb comp).yb.toNat
        = xb.toNat / 2 ^ (ea.toNat - eb.toNat) + (align p xa ea xb eb comp).c.toNat := by
  rcases align_cases p xa ea xb eb comp with ⟨hlt, -⟩ | ⟨-, hcase⟩ | ⟨rfl, -⟩
  · omega
  · exact hcase
  · omega

/-- ALIGN at equal exponents moves nothing (R50). -/
theorem align_self (p : OpenParams) (xa xb e : Word) (comp : Bit) :
    align p xa e xb e comp = { ya := xa, yb := xb, ec := e, d := 0, c := 0 } := by
  have hirrefl : ¬ e < e := BitVec.lt_irrefl e
  rw [align, if_neg hirrefl, if_neg hirrefl]

/-- ALIGN adds no carry in FADD, whichever operand moves (R50). -/
theorem align_carry_add (p : OpenParams) (xa ea xb eb : Word) : (align p xa ea xb eb 0).c = 0 := by
  rcases align_cases p xa ea xb eb 0 with ⟨-, -, -, -, hc, -⟩ | ⟨-, -, -, -, hc, -⟩ | ⟨-, -, -, -, -, hc⟩
  · rw [hc, alignCarry_add]
  · rw [hc, alignCarry_add]
  · exact hc

/-- SUB_CARRY at stage level answers the carry ALIGN adds in FSUB, for a distance that eight bits hold (R52). -/
theorem exec_subCarry_alignCarry (x d : Word) (s : State) (h : d.toNat ≤ 255) :
    exec (.subCarry (x.setWidth 24) (d.setWidth 8)) s = .next (s.answer (.bit (alignCarry Config.params x d 1))) := by
  have hd : (d.setWidth 8).toNat = d.toNat := by
    rw [BitVec.toNat_setWidth]
    exact Nat.mod_eq_of_lt (by omega)
  rw [exec_subCarry, hd, alignCarry_sub]

/-- The common exponent is the larger one (R50). -/
theorem align_ec_toNat (p : OpenParams) (xa ea xb eb : Word) (comp : Bit) :
    (align p xa ea xb eb comp).ec.toNat = max ea.toNat eb.toNat := by
  rcases align_cases p xa ea xb eb comp with ⟨hlt, hec, -⟩ | ⟨hgt, hec, -⟩ | ⟨rfl, hec, -⟩ <;> rw [hec] <;> omega

/-- The distance is the difference of the exponents (R50). -/
theorem align_d_toNat (p : OpenParams) (xa ea xb eb : Word) (comp : Bit) :
    (align p xa ea xb eb comp).d.toNat = max ea.toNat eb.toNat - min ea.toNat eb.toNat := by
  rcases align_cases p xa ea xb eb comp with ⟨hlt, -, hd, -⟩ | ⟨hgt, -, hd, -⟩ | ⟨rfl, -, hd, -⟩ <;> rw [hd]
  · omega
  · omega
  · rw [max_self, min_self, Nat.sub_self]; rfl

/-- Settles O41: one operand moves by the difference and takes the carry of SUB_CARRY while the other passes through,
by which exponent is the smaller one (`align_of_lt`, `align_of_gt`); at equal exponents nothing moves (`align_self`),
and in FADD there is no carry (`align_carry_add`). -/
theorem alignShiftsTheSmallerExponentOnly : Obligations.AlignShiftsTheSmallerExponentOnly := by
  intro xa ea xb eb comp s
  refine ⟨_, _, _, _, _, exec_align xa ea xb eb comp s, align_ec_toNat .., align_d_toNat .., fun hlt => ?first,
    fun hgt => ?second, ?equal, ?add, ?carryFirst, ?carrySecond⟩
  case first =>
    obtain ⟨-, hd, hyb, -, hya⟩ := align_of_lt Config.params xa xb comp hlt
    rw [hd]
    exact ⟨hya, hyb⟩
  case second =>
    obtain ⟨-, hd, hya, -, hyb⟩ := align_of_gt Config.params xa xb comp hgt
    rw [hd]
    exact ⟨hya, hyb⟩
  case equal =>
    rintro rfl
    rw [align_self]
    exact ⟨rfl, rfl, rfl⟩
  case add =>
    rintro rfl
    exact align_carry_add ..
  case carryFirst =>
    rintro rfl hlt hsmall
    obtain ⟨-, -, -, hc, -⟩ := align_of_lt Config.params xa xb 1 hlt
    rw [exec_subCarry_alignCarry _ _ _ hsmall, ← hc, State.answer]
  case carrySecond =>
    rintro rfl hgt hsmall
    obtain ⟨-, -, -, hc, -⟩ := align_of_gt Config.params xa xb 1 hgt
    rw [exec_subCarry_alignCarry _ _ _ hsmall, ← hc, State.answer]

/-- Truncating a number to a multiple of `2 ^ d` loses its remainder, which is less than `2 ^ d` (R51). -/
theorem truncation_loss {x y d : Nat} (h : y = x / 2 ^ d) :
    y * 2 ^ d + x % 2 ^ d = x ∧ x - y * 2 ^ d < 2 ^ d := by
  subst h
  have hsplit := Nat.div_add_mod' x (2 ^ d)
  have hlost : x % 2 ^ d < 2 ^ d := Nat.mod_lt x (by positivity)
  omega

/-- Settles O42: in FADD no carry is added (`align_carry_add`), so the operand that moves is truncated alone
(`truncation_loss`) and nothing else changes. -/
theorem alignLosesLessThanOneUnit : Obligations.AlignLosesLessThanOneUnit := by
  intro xa ea xb eb s
  have hexec := exec_align xa ea xb eb 0 s
  have hcarry := align_carry_add Config.params xa ea xb eb
  rw [hcarry] at hexec
  refine ⟨_, _, _, _, hexec, fun hlt => ?first, fun hgt => ?second, ?equal⟩
  case first =>
    obtain ⟨hec, -, hyb, -, hya⟩ := align_of_lt Config.params xa xb 0 hlt
    rw [hcarry] at hya
    rw [hec]
    exact ⟨rfl, hyb, truncation_loss hya⟩
  case second =>
    obtain ⟨hec, -, hya, -, hyb⟩ := align_of_gt Config.params xa xb 0 hgt
    rw [hcarry] at hyb
    rw [hec]
    exact ⟨rfl, hya, truncation_loss hyb⟩
  case equal =>
    rintro rfl
    rw [align_self]
    exact ⟨rfl, rfl, rfl⟩

/-- Settles O43: SUB_CARRY answers a function of the significand and the distance whatever the state (`exec_subCarry`),
and 0 when only zeros are shifted out (`subCarry_of_lossless`), as at (0xC00000, 1). -/
theorem subCarryIsZeroWhenOnlyZerosAreLost : Obligations.SubCarryIsZeroWhenOnlyZerosAreLost := by
  refine ⟨fun sig d => ⟨subCarry Config.params sig d.toNat, exec_subCarry sig d, subCarry_of_lossless _⟩, fun s => ?_⟩
  have hlossless : (0xC00000 : BitVec 24).toNat % 2 ^ (1 : BitVec 8).toNat = 0 := by decide
  rw [exec_subCarry, subCarry_of_lossless _ hlossless, State.answer]

/-- A magnitude of leading bit k at position 23: moved up without loss, or down by one position with the loss of its
lowest bit (R53, R56). -/
theorem normalised_magnitude {m k n : Nat} (hn : n = m * 2 ^ 23 / 2 ^ k) :
    (k ≤ 23 → n = m * 2 ^ (23 - k)) ∧ (k = 24 → n * 2 = m - m % 2) := by
  refine ⟨fun hle => ?up, fun h24 => ?down⟩
  case up =>
    have hpow : 2 ^ 23 = 2 ^ (23 - k) * 2 ^ k := (Nat.pow_sub_mul_pow 2 hle).symm
    rw [hn, hpow, ← Nat.mul_assoc, Nat.mul_div_cancel _ (by positivity)]
  case down =>
    subst h24
    omega

/-- Settles O44: a zero magnitude is not found (`renorm_zero`); any other below 2^25 has its leading bit at `log2`,
which RENORM brings to position 23, compensating the exponent (`renorm_of_pos`, `normalised_magnitude`). -/
theorem renormNormalisesTheMagnitude : Obligations.RenormNormalisesTheMagnitude := by
  intro mag ec s
  refine ⟨_, _, _, exec_renorm mag ec s, ?zero, fun hpos hbound => ?positive⟩
  case zero =>
    rintro rfl
    rw [renorm_zero]
    exact ⟨rfl, rfl, rfl⟩
  case positive =>
    obtain ⟨-, hfound, -, -, hne, hnmag, hlow, hhigh⟩ := renorm_of_pos Config.params ec hpos hbound
    obtain ⟨hup, hdown⟩ := normalised_magnitude hnmag
    exact ⟨hfound, hlow, by omega, mag.toNat.log2, Nat.log2_self_le (by omega), Nat.lt_log2_self, hne, hup, hdown⟩

/-- STRIP on a non-zero word is a mask with every bit but IMPLICIT_BIT set, and on zero it is the same mask (R55). -/
theorem strip_eq_and (n : Word) : strip n = n &&& ~~~BitVec.twoPow 32 Config.implicitBit := by
  rw [strip]
  split
  next => rfl
  next hzero => rw [not_not.1 hzero]; exact BitVec.zero_and.symm

theorem strip_getLsbD (n : Word) (k : Nat) : (strip n).getLsbD k = (decide (k ≠ 23) && n.getLsbD k) := by
  rw [strip_eq_and, BitVec.getLsbD_and, BitVec.getLsbD_not, BitVec.getLsbD_twoPow]
  by_cases hk : k < 32
  · simp [hk, Config.implicitBit, eq_comm, Bool.and_comm]
  · simp [BitVec.getLsbD_of_ge n k (by omega)]

/-- Settles O45: bit by bit STRIP masks out bit 23 alone (`strip_getLsbD`); in a normalised magnitude that bit is the
leading one, so clearing it subtracts 2^23 (`strip_toNat`). -/
theorem stripClearsBit23Only : Obligations.StripClearsBit23Only :=
  fun nmag s => ⟨strip nmag, exec_strip nmag s, strip_getLsbD nmag, fun hlow hhigh => strip_toNat hlow (by omega)⟩

end Sys2Proof.Machine
end

section
/-! More statements of 43_twos_complement_adder.md. -/

namespace Sys2Proof.Machine

/-- SUM answers the accumulator at stage level and touches nothing else (R61). -/
theorem exec_sum (ta tb : Word) (s : State) : exec (.sum ta tb) s = .next (s.answer (.word (sum ta tb))) := rfl

/-- Settles O47: SUM is addition of words, and for converted significands it is the integers' (`sum_toInt`). -/
theorem sumAddsModuloTheWord : Obligations.SumAddsModuloTheWord :=
  fun ta tb s => ⟨sum ta tb, exec_sum ta tb s, BitVec.toNat_add ta tb, sum_toInt⟩

/-- Settles O49: each stage answers its function of the one before, and the three together give the sign and the
absolute value of the signed sum (`adder_spec`). -/
theorem adderBlockComputesTheSignedSum : Obligations.AdderBlockComputesTheSignedSum := by
  intro sa sb ya yb s ha hb
  obtain ⟨hsign, hmag, hbound⟩ := adder_spec sa sb ha hb
  exact ⟨_, _, _, _, _, exec_tcConvert sa ya s, exec_tcConvert sb yb s, exec_sum _ _ s, exec_signRecover _ s, hmag,
    hsign, hbound⟩

end Sys2Proof.Machine
end

section
/-! More statements of 44_addition.md and 45_subtraction.md: the conditions and the tuple-level functions. -/

namespace Sys2Proof.Machine

/-- CANCEL_ADD answers the condition at stage level and touches nothing else (R70). -/
theorem exec_cancelAdd (sa sb : Bit) (ya yb : Word) (s : State) :
    exec (.cancelAdd sa sb ya yb) s = .next (s.answer (.bit (cancelAdd sa sb ya yb))) := rfl

/-- CANCEL_SUB answers the condition at stage level and touches nothing else (R80). -/
theorem exec_cancelSub (x y : FloatValue) (s : State) :
    exec (.cancelSub x y) s = .next (s.answer (.bit (cancelSub x y))) := rfl

/-- Settles O50: the wire is 1 exactly when its condition holds (`Bit.of_eq_one`). -/
theorem cancelAddComparesAlignedSignificands : Obligations.CancelAddComparesAlignedSignificands :=
  fun sa sb ya yb s => ⟨cancelAdd sa sb ya yb, exec_cancelAdd sa sb ya yb s, Bit.of_eq_one _⟩

/-- Settles O51: the wire is 1 exactly when its condition holds (`Bit.of_eq_one`); at rest the implicit bit hides no
difference of the mantissas, so the condition is equality (`cancelSub_eq_one`). -/
theorem cancelSubComparesTheOperands : Obligations.CancelSubComparesTheOperands :=
  fun x y s => ⟨cancelSub x y, exec_cancelSub x y s, Bit.of_eq_one _, cancelSub_eq_one⟩

/-- The check of the tuple-level functions passes exactly for two at-rest operands (D22). -/
theorem atRest_and_eq_true (x y : FloatValue) : (atRest x && atRest y) = true ↔ AtRest x ∧ AtRest y := by
  rw [Bool.and_eq_true, atRest_eq_true, atRest_eq_true]

/-- PIPE on at-rest operands answers five of the pipeline's wires (R71). -/
theorem exec_pipe_of_atRest {x y : FloatValue} (comp : Bit) (s : State) (hx : AtRest x) (hy : AtRest y) :
    exec (.pipe x y comp) s = .next (s.answer (.piped (pipe Config.params x y comp).rs
      (pipe Config.params x y comp).ne (pipe Config.params x y comp).frac (pipe Config.params x y comp).ya
      (pipe Config.params x y comp).yb)) := if_pos ((atRest_and_eq_true x y).2 ⟨hx, hy⟩)

/-- FADD_T on at-rest operands answers the sum (R73). -/
theorem exec_faddT_of_atRest {x y : FloatValue} (s : State) (hx : AtRest x) (hy : AtRest y) :
    exec (.faddT x y) s = .next (s.answer (.value (faddT Config.params x y))) :=
  if_pos ((atRest_and_eq_true x y).2 ⟨hx, hy⟩)

/-- FSUB_T on at-rest operands answers the difference (R82). -/
theorem exec_fsubT_of_atRest {x y : FloatValue} (s : State) (hx : AtRest x) (hy : AtRest y) :
    exec (.fsubT x y) s = .next (s.answer (.value (fsubT Config.params x y))) :=
  if_pos ((atRest_and_eq_true x y).2 ⟨hx, hy⟩)

/-- Settles O54: PIPE answers wires of one pipeline run (`exec_pipe_of_atRest`), and each wire of the run is the
function of the wires before it that its stage answers. -/
theorem pipeIsItsStagesInOrder : Obligations.PipeIsItsStagesInOrder := by
  intro x y comp s hx hy
  exact ⟨withImplicitBit x, withImplicitBit y, _, _, _, _, _, _, _, _, _, _, _, _, _, _,
    exec_withImplicitBit x s, exec_withImplicitBit y s, exec_align .., exec_tcConvert .., exec_tcConvert ..,
    exec_sum .., exec_signRecover .., exec_renorm .., exec_strip .., exec_pipe_of_atRest comp s hx hy⟩

/-- Settles O55: on at-rest tuples both functions answer (`exec_faddT_of_atRest`, `exec_fsubT_of_atRest`), and what they
answer is integer arithmetic (`faddT_eq`, `fsubT_eq`). -/
theorem tupleAdditionAndSubtractionAreIntegerArithmetic :
    Obligations.TupleAdditionAndSubtractionAreIntegerArithmetic := by
  intro x y s hx hy
  rw [exec_faddT_of_atRest s hx hy, exec_fsubT_of_atRest s hx hy, faddT_eq _ hx hy, fsubT_eq _ hx hy]
  exact ⟨rfl, rfl⟩

/-- An evaluation that answers under the at-rest check, and is refused otherwise, is refused exactly off it. -/
theorem refused_iff_not_atRest (x y : FloatValue) (t : State) :
    (if atRest x && atRest y then .next t else .refused .operandNotAtRest : Host.Outcome State Fault Refusal)
      = .refused .operandNotAtRest ↔ ¬ (AtRest x ∧ AtRest y) := by
  rw [← atRest_and_eq_true]
  split
  next hrest => exact iff_of_false (by simp only [reduceCtorEq, not_false_eq_true]) (not_not.2 hrest)
  next hrest => exact iff_of_true rfl hrest

/-- Settles O56: the three functions answer a state under the at-rest check alone (`refused_iff_not_atRest`). -/
theorem tupleOperationsRefuseExactlyOperandsNotAtRest :
    Obligations.TupleOperationsRefuseExactlyOperandsNotAtRest :=
  fun x y _ _ => ⟨refused_iff_not_atRest x y _, refused_iff_not_atRest x y _, refused_iff_not_atRest x y _⟩

end Sys2Proof.Machine
end

section
/-! Addition and subtraction in integers: the algebra of `integerAdd` and `integerSub` that the laws of 44_addition.md
and 45_subtraction.md follow from. -/

namespace Sys2Proof.Machine

theorem negValue_negValue (f : FloatValue) : negValue (negValue f) = f := by
  obtain ⟨s, e, m⟩ := f
  rcases bit_cases s with rfl | rfl <;> simp only [negValue, signInvert_zero, signInvert_one]

theorem commonExponent_comm (x y : FloatValue) : commonExponent x y = commonExponent y x := max_comm _ _

theorem commonExponent_of_le {x y : FloatValue} (h : y.exponent.toNat ≤ x.exponent.toNat) :
    commonExponent x y = x.exponent.toNat := max_eq_left h

theorem integerSum_comm (x y : FloatValue) : integerSum x y = integerSum y x := by
  rw [integerSum, integerSum, commonExponent_comm, add_comm]

theorem integerAdd_comm (x y : FloatValue) : integerAdd x y = integerAdd y x := by
  rw [integerAdd, integerAdd, integerSum_comm, commonExponent_comm]

/-- The sum with a negation is the difference of the aligned significands. -/
theorem integerSum_negValue (x y : FloatValue) : integerSum x (negValue y) =
    alignedInteger x (commonExponent x y) 0 - alignedInteger y (commonExponent x y) 0 := by
  have hcommon : commonExponent x (negValue y) = commonExponent x y := rfl
  rw [integerSum, hcommon, alignedInteger_negValue, sub_eq_add_neg]

/-- Exchanging the operands of a difference negates it. -/
theorem integerSum_negValue_exchange (x y : FloatValue) :
    integerSum y (negValue x) = -integerSum x (negValue y) := by
  rw [integerSum_negValue, integerSum_negValue, commonExponent_comm, neg_sub]

/-- A tuple plus its negation is the exact zero (R76 (a)). -/
theorem integerAdd_negValue {x : FloatValue} (hx : AtRest x) : integerAdd x (negValue x) = FloatValue.zero :=
  if_pos ((integerSum_eq_zero_iff hx (atRest_negValue hx)).2 rfl)

/-- A tuple minus itself is the exact zero (R84 (a)). -/
theorem integerSub_self (p : OpenParams) (x : FloatValue) : integerSub p x x = FloatValue.zero := if_pos rfl

/-- Where only zeros are shifted out, subtraction is addition of the negation (R85). -/
theorem integerSub_of_lossless (p : OpenParams) {x y : FloatValue} (hx : AtRest x) (hy : AtRest y)
    (hlx : lostBits x (commonExponent x y) = 0) (hly : lostBits y (commonExponent x y) = 0) :
    integerSub p x y = integerAdd x (negValue y) :=
  integerSub_of_carry_zero p hx hy (carryInto_of_lossless p x hx _ hlx) (carryInto_of_lossless p y hy _ hly)

/-- A carry that is constantly 0 adds nothing to any operand (R85). -/
theorem carryInto_of_carry_zero {p : OpenParams} (h : ∀ sig d, p.carry sig d = 0) (f : FloatValue) (ec : Nat) :
    carryInto p f ec = 0 := by
  have hsub : ∀ sig d, subCarry p sig d = 0 := by
    intro sig d
    rw [subCarry, h, ite_self]
  rw [carryInto, hsub]
  exact ite_self 0

/-- The tuple of a negated integer differs in its sign alone. -/
theorem normalizedTuple_neg {v : Int} (hv : v ≠ 0) (ec : Nat) :
    normalizedTuple (-v) ec = { normalizedTuple v ec with sign := ~~~(normalizedTuple v ec).sign } := by
  have hsign : Bit.of (-v < 0) = ~~~(Bit.of (v < 0)) := by
    rcases lt_or_gt_of_ne hv with hneg | hpos
    · rw [Bit.of, Bit.of, if_neg (by omega), if_pos hneg]; rfl
    · rw [Bit.of, Bit.of, if_pos (by omega), if_neg (by omega)]; rfl
  simp only [normalizedTuple, Int.natAbs_neg, hsign]

/-- A significand times a power of two, signed, normalises to the tuple it is the significand of, with the power in the
exponent. -/
theorem normalizedTuple_significand {f : FloatValue} (hf : AtRest f) (j ec : Nat) :
    normalizedTuple (signFactor f.sign * (significand f * 2 ^ j : Nat)) ec =
      { sign := f.sign, exponent := BitVec.ofNat 32 (ec + j), mantissa := f.mantissa } := by
  obtain ⟨hlow, hhigh⟩ := significand_bounds hf
  have hpow : 0 < 2 ^ j := by positivity
  have hpos : 0 < significand f * 2 ^ j := by positivity
  have habs : (signFactor f.sign * (significand f * 2 ^ j : Nat)).natAbs = significand f * 2 ^ j := by
    rcases bit_cases f.sign with hs | hs <;> rw [hs]
    · rw [signFactor_zero, one_mul, Int.natAbs_natCast]
    · rw [signFactor_one, neg_one_mul, Int.natAbs_neg, Int.natAbs_natCast]
  have hlog : (significand f * 2 ^ j).log2 = 23 + j := by
    rw [Nat.log2_eq_iff hpos.ne', show 23 + j + 1 = 24 + j by ring, pow_add, pow_add]
    exact ⟨Nat.mul_le_mul_right _ hlow, Nat.mul_lt_mul_of_pos_right (by omega) hpow⟩
  have hsign : Bit.of (signFactor f.sign * (significand f * 2 ^ j : Nat) < 0) = f.sign := by
    rcases bit_cases f.sign with hs | hs <;> rw [hs]
    · rw [signFactor_zero, Bit.of_eq_zero]; omega
    · rw [signFactor_one, Bit.of_eq_one]; omega
  have hmantissa : significand f * 2 ^ j * 2 ^ 23 / 2 ^ (23 + j) - 2 ^ 23 = f.mantissa.toNat := by
    rw [Nat.mul_assoc, ← pow_add, Nat.add_comm j, Nat.mul_div_cancel _ (by positivity), significand,
      Config.implicitBit, Nat.add_sub_cancel_left]
  have hexponent : (ec : Int) + (23 + j : Nat) - 23 = (ec + j : Nat) := by push_cast; ring
  simp only [normalizedTuple, habs, hlog, hsign, hmantissa, hexponent, BitVec.ofInt_natCast, BitVec.ofNat_toNat,
    BitVec.setWidth_eq]

/-- A tuple plus itself keeps sign and mantissa and has the next exponent (R76 (c)). -/
theorem integerAdd_self {x : FloatValue} (hx : AtRest x) : integerAdd x x =
    { sign := x.sign, exponent := BitVec.ofNat 32 (x.exponent.toNat + 1), mantissa := x.mantissa } := by
  have hcommon : commonExponent x x = x.exponent.toNat := max_self _
  have hsum : integerSum x x = signFactor x.sign * (significand x * 2 ^ 1 : Nat) := by
    simp only [integerSum, hcommon, alignedInteger, Nat.sub_self, pow_zero, Nat.div_one, Nat.add_zero]
    push_cast
    ring
  have hne : x ≠ negValue x := fun h => by
    have hsign : x.sign = signInvert x.sign := congrArg FloatValue.sign h
    rcases bit_cases x.sign with hs | hs <;> rw [hs] at hsign <;> exact absurd hsign (by decide)
  rw [integerAdd, if_neg (mt (integerSum_eq_zero_iff hx hx).1 hne), hsum, hcommon, normalizedTuple_significand hx]

/-- An operand 24 or more exponents below the common one is truncated away (R50 (b)). -/
theorem alignedInteger_of_wide_gap {f : FloatValue} (hf : AtRest f) {ec : Nat} (h : f.exponent.toNat + 24 ≤ ec) :
    alignedInteger f ec 0 = 0 := by
  obtain ⟨-, hhigh⟩ := significand_bounds hf
  have hpow : 2 ^ 24 ≤ 2 ^ (ec - f.exponent.toNat) := Nat.pow_le_pow_right (by norm_num) (by omega)
  rw [alignedInteger, Nat.div_eq_of_lt (by omega), Nat.add_zero, Nat.cast_zero, mul_zero]

/-- Adding an operand 24 or more exponents below changes nothing (R50 (b)). -/
theorem integerAdd_of_wide_gap {x y : FloatValue} (hx : AtRest x) (hy : AtRest y)
    (h : y.exponent.toNat + 24 ≤ x.exponent.toNat) : integerAdd x y = x := by
  have hcommon : commonExponent x y = x.exponent.toNat := commonExponent_of_le (by omega)
  have hsum : integerSum x y = signFactor x.sign * (significand x * 2 ^ 0 : Nat) := by
    rw [integerSum, hcommon, alignedInteger_of_wide_gap hy h, add_zero, alignedInteger, Nat.sub_self, pow_zero,
      Nat.div_one, Nat.mul_one, Nat.add_zero]
  have hne : y ≠ negValue x := by
    rintro rfl
    have hsame : (negValue x).exponent = x.exponent := rfl
    rw [hsame] at h
    omega
  rw [integerAdd, if_neg (mt (integerSum_eq_zero_iff hx hy).1 hne), hsum, hcommon, normalizedTuple_significand hx,
    Nat.add_zero, BitVec.ofNat_toNat, BitVec.setWidth_eq]

/-- The range of a normalised tuple (R74): the leading bit is at most at position 24, so the exponent moves up by at
most 1 and down by at most 23. -/
theorem normalizedTuple_range {v : Int} (hlog : v.natAbs.log2 ≤ 24) {ec low high : Nat} (hlow : low ≤ ec)
    (hhigh : ec ≤ high) (hbyte : high ≤ 255) :
    (normalizedTuple v ec).mantissa.toNat ≤ 0x7FFFFF
    ∧ ((normalizedTuple v ec).exponent.toNat ≤ high + 1
      ∨ 0xFFFFFFE9 + low ≤ (normalizedTuple v ec).exponent.toNat) := by
  have hbelow : v.natAbs < 2 ^ (v.natAbs.log2 + 1) := Nat.lt_log2_self
  have hsig : v.natAbs * 2 ^ 23 / 2 ^ v.natAbs.log2 < 2 ^ 24 := by
    rw [Nat.div_lt_iff_lt_mul (by positivity)]
    calc v.natAbs * 2 ^ 23 < 2 ^ (v.natAbs.log2 + 1) * 2 ^ 23 := Nat.mul_lt_mul_of_pos_right hbelow (by norm_num)
      _ = 2 ^ 24 * 2 ^ v.natAbs.log2 := by ring
  constructor
  · show (BitVec.ofNat 32 _).toNat ≤ _
    rw [BitVec.toNat_ofNat]
    omega
  · show (BitVec.ofInt 32 _).toNat ≤ _ ∨ _ ≤ (BitVec.ofInt 32 _).toNat
    rw [BitVec.toNat_ofInt]
    omega

end Sys2Proof.Machine
end

section
/-! What the pipeline's wires say about the integers of `integerAdd` and `integerSub`. -/

namespace Sys2Proof.Machine

/-- The magnitude on the wire is zero exactly when the signed integer is (R64). -/
theorem pipe_mag_eq_zero_iff (p : OpenParams) {x y : FloatValue} (comp : Bit) (hx : AtRest x) (hy : AtRest y) :
    (pipe p x y comp).mag = 0 ↔ pipeInteger p comp x y = 0 := by
  obtain ⟨-, hmag, -⟩ := pipe_signMag p comp hx hy
  rw [← Int.natAbs_eq_zero, ← hmag, ← BitVec.toNat_inj]
  rfl

/-- Every finished result whose magnitude is not zero is in the range of R74: it is the exact zero or the normalised
tuple of the pipeline's integer. -/
theorem result_range (p : OpenParams) {x y : FloatValue} (comp cancel : Bit) (hx : AtRest x) (hy : AtRest y)
    (hmag : (pipe p x y comp).mag ≠ 0) {low high : Nat} (hlow : low ≤ commonExponent x y)
    (hhigh : commonExponent x y ≤ high) (hbyte : high ≤ 255) :
    ({ cancel := cancel, pipe := pipe p x y comp } : Internal).result.exponent.toNat ≤ high + 1
    ∨ 0xFFFFFFE9 + low ≤ ({ cancel := cancel, pipe := pipe p x y comp } : Internal).result.exponent.toNat := by
  have hv := mt (pipe_mag_eq_zero_iff p comp hx hy).2 hmag
  obtain ⟨hlog, -, -, -, -, -, -, -, htuple⟩ := pipe_nonzero p comp hx hy hv
  rw [Internal.result]
  rcases bit_cases cancel with rfl | rfl
  · rw [finalize_zero, htuple]
    exact (normalizedTuple_range hlog hlow hhigh hbyte).2
  · rw [finalize_one]
    exact .inl (Nat.zero_le _)

/-- In the domain the common exponent is that of a normal number (00_scope.md section 5). -/
theorem commonExponent_of_inDomain {a b : Word} (h : InDomain a b) :
    1 ≤ commonExponent (unpack a) (unpack b) ∧ commonExponent (unpack a) (unpack b) ≤ 254 :=
  ⟨le_max_of_le_left h.1.1, max_le h.1.2 h.2.2⟩

end Sys2Proof.Machine
end

section
/-! More statements of 44_addition.md: FADD. -/

namespace Sys2Proof.Machine

/-- FADD is one evaluation of its triple (R77). -/
theorem exec_fadd (a b : Word) (s : State) :
    exec (.fadd a b) s = .next (s.evaluate { op := 0, a := a, b := b }) := exec_of_tx? s rfl

/-- FADD drives the integer sum of its operands (R73, R77). -/
theorem evaluate_fadd_outputs (s : State) (a b : Word) :
    (s.evaluate { op := 0, a := a, b := b }).outputs = outputsOf (integerAdd (unpack a) (unpack b)) 0 := by
  rw [State.evaluate_outputs, topLevel_fadd]

/-- The signals FADD drives (R73). -/
theorem evaluate_fadd_internal (s : State) (a b : Word) :
    (s.evaluate { op := 0, a := a, b := b }).internal
      = some (additionSignals Config.params (unpack a) (unpack b)) := rfl

/-- The flag of addition is a zero sum, which is a sum with the negation (R70, R73). -/
theorem additionSignals_cancel (p : OpenParams) {x y : FloatValue} (hx : AtRest x) (hy : AtRest y) :
    (additionSignals p x y).cancel = 1 ↔ y = negValue x :=
  (cancelAdd_pipe p hx hy).trans (integerSum_eq_zero_iff hx hy)

/-- Settles O14: FADD is one evaluation of its triple, whose result is the integer sum (`evaluate_fadd_outputs`). -/
theorem faddDrivesTheIntegerSum : Obligations.FaddDrivesTheIntegerSum :=
  fun a b s => ⟨_, exec_fadd a b s, evaluate_fadd_outputs s a b, State.evaluate_inputs .., State.evaluate_pending ..,
    State.evaluate_stage ..⟩

/-- Settles O15: the negated word unpacks to the negated tuple (`unpack_negWord`), and a tuple plus its negation is the
exact zero (`integerAdd_negValue`). -/
theorem faddOfTheNegationIsExactZero : Obligations.FaddOfTheNegationIsExactZero := by
  intro a s
  refine ⟨_, exec_fadd a (negWord a) s, ?_⟩
  rw [evaluate_fadd_outputs, unpack_negWord, integerAdd_negValue (atRest_unpack a), outputsOf_zero]

/-- Settles O16: the flag is raised for the negated tuple alone (`additionSignals_cancel`), which is the unpacked
negated word (`unpack_negWord`, `unpack_inj`). -/
theorem faddFlagsExactlyTheNegation : Obligations.FaddFlagsExactlyTheNegation := by
  intro a b s
  refine ⟨_, _, exec_fadd a b s, evaluate_fadd_internal s a b, ?_⟩
  rw [additionSignals_cancel _ (atRest_unpack a) (atRest_unpack b), ← unpack_negWord, unpack_inj]

/-- Settles O17: both orders drive the integer sum, which is commutative (`integerAdd_comm`). -/
theorem faddIsCommutative : Obligations.FaddIsCommutative := by
  intro a b s
  refine ⟨_, _, exec_fadd a b s, exec_fadd b a s, ?_⟩
  rw [evaluate_fadd_outputs, evaluate_fadd_outputs, integerAdd_comm]

/-- Settles O18: the integer sum of a tuple with itself is twice its significand, which normalises to the same
mantissa at the next exponent (`integerAdd_self`); an unpacked exponent is at most 255, so it does not wrap. -/
theorem faddOfAWordWithItselfDoubles : Obligations.FaddOfAWordWithItselfDoubles := by
  intro a s
  have hrest := atRest_unpack a
  refine ⟨_, exec_fadd a a s, ?_⟩
  rw [evaluate_fadd_outputs, integerAdd_self hrest]
  refine ⟨rfl, ?exponent, rfl⟩
  case exponent => exact Nat.mod_eq_of_lt (by have hbyte := hrest.1; omega)

/-- Settles O19: the smaller operand is truncated away, so the integer sum is the larger operand
(`integerAdd_of_wide_gap`), in both orders (`integerAdd_comm`), and packs to its word. -/
theorem faddKeepsTheLargerOperandAcrossAWideGap : Obligations.FaddKeepsTheLargerOperandAcrossAWideGap := by
  intro a b s hgap
  have hsum := integerAdd_of_wide_gap (atRest_unpack a) (atRest_unpack b) hgap
  refine ⟨_, _, exec_fadd a b s, exec_fadd b a s, ?_⟩
  rw [evaluate_fadd_outputs, evaluate_fadd_outputs, integerAdd_comm (unpack b), hsum]
  exact ⟨rfl, rfl, pack_unpack a⟩

end Sys2Proof.Machine
end

section
/-! More statements of 45_subtraction.md: FSUB. -/

namespace Sys2Proof.Machine

/-- FSUB is one evaluation of its triple (R83). -/
theorem exec_fsub (a b : Word) (s : State) :
    exec (.fsub a b) s = .next (s.evaluate { op := 1, a := a, b := b }) := exec_of_tx? s rfl

/-- FSUB drives the integer difference of its operands (R82, R83). -/
theorem evaluate_fsub_outputs (s : State) (a b : Word) :
    (s.evaluate { op := 1, a := a, b := b }).outputs
      = outputsOf (integerSub Config.params (unpack a) (unpack b)) 0 := by
  rw [State.evaluate_outputs, topLevel_fsub]

/-- The signals FSUB drives (R82). -/
theorem evaluate_fsub_internal (s : State) (a b : Word) :
    (s.evaluate { op := 1, a := a, b := b }).internal
      = some (subtractionSignals Config.params (unpack a) (unpack b)) := rfl

/-- The flag of subtraction is equality of the operands (R80). -/
theorem subtractionSignals_cancel (p : OpenParams) {x y : FloatValue} (hx : AtRest x) (hy : AtRest y) :
    (subtractionSignals p x y).cancel = 1 ↔ x = y := cancelSub_eq_one hx hy

/-- Settles O23: FSUB is one evaluation of its triple, whose result is the integer difference
(`evaluate_fsub_outputs`). -/
theorem fsubDrivesTheIntegerDifference : Obligations.FsubDrivesTheIntegerDifference :=
  fun a b s => ⟨_, exec_fsub a b s, evaluate_fsub_outputs s a b, State.evaluate_inputs .., State.evaluate_pending ..,
    State.evaluate_stage ..⟩

/-- Settles O24: the integer difference of a tuple from itself is the exact zero (`integerSub_self`). -/
theorem fsubOfAWordFromItselfIsExactZero : Obligations.FsubOfAWordFromItselfIsExactZero := by
  intro a s
  refine ⟨_, exec_fsub a a s, ?_⟩
  rw [evaluate_fsub_outputs, integerSub_self, outputsOf_zero]

/-- Settles O25: the flag is equality of the unpacked operands (`subtractionSignals_cancel`), which is equality of the
words (`unpack_inj`). -/
theorem fsubFlagsExactlyEqualWords : Obligations.FsubFlagsExactlyEqualWords := by
  intro a b s
  refine ⟨_, _, exec_fsub a b s, evaluate_fsub_internal s a b, ?_⟩
  rw [subtractionSignals_cancel _ (atRest_unpack a) (atRest_unpack b), unpack_inj]

/-- Settles O26: in both clauses no carry is added (`integerSub_of_lossless`, `carryInto_of_carry_zero`), and without
one the integer difference is the integer sum with the negation. -/
theorem fsubIsFaddOfTheNegation : Obligations.FsubIsFaddOfTheNegation := by
  refine ⟨fun a b s hla hlb => ?lossless, fun p x y hcarry hx hy => ?constant⟩
  case lossless =>
    refine ⟨_, _, exec_fsub a b s, exec_fadd a (negWord b) s, ?_⟩
    rw [evaluate_fsub_outputs, evaluate_fadd_outputs, unpack_negWord,
      integerSub_of_lossless _ (atRest_unpack a) (atRest_unpack b) hla hlb]
  case constant =>
    rw [fsubT_eq p hx hy, faddT_eq p hx (atRest_negValue hy)]
    exact integerSub_of_carry_zero p hx hy (carryInto_of_carry_zero hcarry x _) (carryInto_of_carry_zero hcarry y _)

/-- Exchanging the operands of a lossless difference of unequal tuples flips the sign of the result alone (R84 (b)). -/
theorem integerSub_exchange (p : OpenParams) {x y : FloatValue} (hx : AtRest x) (hy : AtRest y) (hne : x ≠ y)
    (hlx : lostBits x (commonExponent x y) = 0) (hly : lostBits y (commonExponent x y) = 0) :
    integerSub p y x = { integerSub p x y with sign := ~~~(integerSub p x y).sign } := by
  have hnonzero : integerSum x (negValue y) ≠ 0 := by
    rw [Ne, integerSum_eq_zero_iff hx (atRest_negValue hy)]
    intro h
    have hflip := congrArg negValue h
    rw [negValue_negValue, negValue_negValue] at hflip
    exact hne hflip.symm
  have hcommon : commonExponent y (negValue x) = commonExponent x (negValue y) := commonExponent_comm y x
  have hforth : integerSub p x y = normalizedTuple (integerSum x (negValue y)) (commonExponent x (negValue y)) := by
    rw [integerSub_of_lossless p hx hy hlx hly, integerAdd, if_neg hnonzero]
  rw [commonExponent_comm] at hlx hly
  rw [integerSub_of_lossless p hy hx hly hlx, integerAdd, integerSum_negValue_exchange, if_neg (neg_ne_zero.2 hnonzero),
    hcommon, normalizedTuple_neg hnonzero, ← hforth]

/-- Settles O27: both orders drive the integer difference, and exchanging its operands flips the sign alone
(`integerSub_exchange`). -/
theorem fsubExchangedFlipsTheSign : Obligations.FsubExchangedFlipsTheSign := by
  intro a b s hne hla hlb
  refine ⟨_, _, exec_fsub a b s, exec_fsub b a s, ?_⟩
  rw [evaluate_fsub_outputs, evaluate_fsub_outputs,
    integerSub_exchange _ (atRest_unpack a) (atRest_unpack b) (mt unpack_inj.1 hne) hla hlb]
  exact ⟨rfl, rfl, rfl⟩

end Sys2Proof.Machine
end

section
/-! The statements about FADD and FSUB together: the range of a result (R74), and the wires as the stages' answers
(R17). -/

namespace Sys2Proof.Machine

/-- A flagged addition drives exponent 0, and an unflagged one has a magnitude that is not zero; so the range of R74
needs no premise in FADD. -/
theorem additionSignals_exponent_range (p : OpenParams) {x y : FloatValue} (hx : AtRest x) (hy : AtRest y)
    {low high : Nat} (hlow : low ≤ commonExponent x y) (hhigh : commonExponent x y ≤ high) (hbyte : high ≤ 255) :
    (additionSignals p x y).result.exponent.toNat ≤ high + 1
    ∨ 0xFFFFFFE9 + low ≤ (additionSignals p x y).result.exponent.toNat := by
  by_cases hzero : integerSum x y = 0
  · have hflag : (additionSignals p x y).cancel = 1 := (cancelAdd_pipe p hx hy).2 hzero
    rw [Internal.result, hflag, finalize_one]
    exact .inl (Nat.zero_le _)
  · have hmag : (pipe p x y 0).mag ≠ 0 := by
      rwa [Ne, pipe_mag_eq_zero_iff p 0 hx hy, pipeInteger_add]
    exact result_range p 0 _ hx hy hmag hlow hhigh hbyte

/-- Settles O20: the fraction port has 23 bits in every evaluation (`topLevel_mantissa_le`); the exponent is within one
above and 23 below the common exponent or 0 (`additionSignals_exponent_range`, `result_range`), and the common exponent
is 0 to 255, in the domain 1 to 254. -/
theorem resultExponentsStayInTheirRange : Obligations.ResultExponentsStayInTheirRange := by
  intro a b s
  have ha := atRest_unpack a
  have hb := atRest_unpack b
  have hnb := atRest_negValue hb
  have hcommon := commonExponent_le ha hb
  refine ⟨⟨_, exec_fadd a b s, topLevel_mantissa_le .., ?fadd, fun hdomain => ?faddDomain⟩,
    ⟨_, _, exec_fsub a b s, evaluate_fsub_internal s a b, topLevel_mantissa_le .., fun hmag => ?fsub,
      fun hmag hdomain => ?fsubDomain⟩⟩
  case fadd => exact additionSignals_exponent_range _ ha hb (Nat.zero_le _) hcommon le_rfl
  case faddDomain =>
    obtain ⟨hlow, hhigh⟩ := commonExponent_of_inDomain hdomain
    exact additionSignals_exponent_range _ ha hb hlow hhigh (by norm_num)
  case fsub => exact result_range _ 1 _ ha hnb hmag (Nat.zero_le _) hcommon le_rfl
  case fsubDomain =>
    obtain ⟨hlow, hhigh⟩ := commonExponent_of_inDomain hdomain
    exact result_range _ 1 _ ha hnb hmag hlow hhigh (by norm_num)

/-- The significand wire of an unpacked word is its low 23 bits under the implicit 1 (R40, R45). -/
theorem withImplicitBit_unpack_toNat (a : Word) :
    (withImplicitBit (unpack a)).mantissa.toNat = 2 ^ 23 + a.toNat % 2 ^ 23 := by
  have hsig : (withImplicitBit (unpack a)).mantissa.toNat = significand (unpack a) := implicit_toNat (atRest_unpack a)
  rw [hsig, significand, unpack_mantissa_toNat, Config.implicitBit]

/-- The search answers the signals `found` and `idx` of a pipeline run on the run's magnitude (R53, R47). -/
theorem exec_findMsb_pipe (x y : FloatValue) (comp : Bit) (u : State) :
    exec (.findMsb (pipe Config.params x y comp).mag 24) u
      = .next (u.answer (.msb (pipe Config.params x y comp).found (pipe Config.params x y comp).idx)) := by
  obtain ⟨hfound, hidx⟩ := renorm_msb Config.params (pipe Config.params x y comp).mag (pipe Config.params x y comp).ec
  have hstart : Config.msbStart = 24 := rfl
  rw [exec_findMsb, ← hstart, ← hfound, ← hidx]
  rfl

/-- Settles O58: each wire of a pipeline run is by definition its stage's function of the wires before it, and the
search inside RENORM is FIND_MSB from index 24 (`exec_findMsb_pipe`); FADD and FSUB differ in the effective sign and
the carry alone. -/
theorem transactionWiresAreTheStagesAnswers : Obligations.TransactionWiresAreTheStagesAnswers := by
  intro a b s u i comp h
  rcases h with ⟨rfl, rfl⟩ | ⟨rfl, rfl⟩
  case' inl =>
    refine ⟨_, _, exec_fadd a b s, evaluate_fadd_internal s a b, BitVec.xor_zero.symm, ?_⟩
  case' inr =>
    refine ⟨_, _, exec_fsub a b s, evaluate_fsub_internal s a b, rfl, ?_⟩
  all_goals
    exact ⟨withImplicitBit_unpack_toNat a, withImplicitBit_unpack_toNat b, exec_align .., exec_tcConvert ..,
      exec_tcConvert .., exec_sum .., exec_signRecover .., exec_findMsb_pipe .., exec_renorm .., exec_strip ..,
      exec_finalize ..⟩

end Sys2Proof.Machine
end

section
/-! Zero magnitude without exact cancellation (42_align_normalize.md, R54). -/

namespace Sys2Proof.Machine

/-- The carry added to an operand is 1 exactly where the operand moves, loses a 1 bit, and the open carry there
is 1 (R52). -/
theorem carryInto_eq_one_iff (p : OpenParams) {f : FloatValue} (hf : AtRest f) (ec : Nat) : carryInto p f ec = 1 ↔
    f.exponent.toNat < ec ∧ lostBits f ec ≠ 0
      ∧ p.carry (BitVec.ofNat 24 (significand f)) (ec - f.exponent.toNat) = 1 := by
  have hbound := (significand_bounds hf).2
  have hsig : (BitVec.ofNat 24 (significand f)).toNat = significand f := Nat.mod_eq_of_lt (by omega)
  have htoNat : ∀ b : Bit, b.toNat = 1 ↔ b = 1 := by decide
  by_cases hlt : f.exponent.toNat < ec
  · rw [carryInto, if_pos hlt, htoNat]
    by_cases hlost : lostBits f ec = 0
    · rw [subCarry_of_lossless p (by rwa [hsig])]
      exact iff_of_false (by decide) fun h => h.2.1 hlost
    · rw [subCarry_of_lossy p (by rwa [hsig])]
      exact ⟨fun h => ⟨hlt, hlost, h⟩, fun h => h.2.2⟩
  · rw [carryInto, if_neg hlt]
    exact iff_of_false (by decide) fun h => hlt h.1

theorem significand_eq_iff (f : FloatValue) (m : Word) : significand f = 2 ^ 23 + m.toNat ↔ f.mantissa = m := by
  rw [significand, Config.implicitBit, Nat.add_left_cancel_iff, BitVec.toNat_inj]

/-- A significand shifted right and carried up reaches the range of significands in one way alone: by one position, from
its two largest values, with a carry. -/
theorem shifted_reaches_significand {m n d c : Nat} (hm : m ≤ 0xFFFFFF) (hn : 0x800000 ≤ n) (hd : 1 ≤ d) (hc : c ≤ 1)
    (h : m / 2 ^ d + c = n) : d = 1 ∧ c = 1 ∧ n = 0x800000 ∧ 0xFFFFFE ≤ m := by
  obtain rfl | hd2 : d = 1 ∨ 2 ≤ d := by omega
  · omega
  · have hpow : 2 ^ 2 ≤ 2 ^ d := Nat.pow_le_pow_right (by norm_num) hd2
    have hquarter : m / 2 ^ d ≤ m / 2 ^ 2 := Nat.div_le_div_left hpow (by norm_num)
    omega

/-- An operand that moves meets the other's significand in the one family of R54: 0xFFFFFF halved and carried up to
0x800000, at neighbouring exponents. -/
theorem alignedMagnitude_eq_significand_iff (p : OpenParams) {f g : FloatValue} (hf : AtRest f) (hg : AtRest g)
    (hlt : f.exponent.toNat < g.exponent.toNat) : alignedMagnitude p 1 f g.exponent.toNat = significand g ↔
      p.carry 0xFFFFFF 1 = 1 ∧ g.mantissa = 0 ∧ f.mantissa = 0x7FFFFF
        ∧ g.exponent.toNat = f.exponent.toNat + 1 := by
  have hcarry := carryInto_eq_one_iff p hf g.exponent.toNat
  rw [alignedMagnitude, pipeCarry_sub]
  constructor
  · intro hmeet
    obtain ⟨hd, hone, hupper, hlower⟩ := shifted_reaches_significand (significand_bounds hf).2 (significand_bounds hg).1
      (Nat.sub_pos_of_lt hlt) (carryInto_le p f _) hmeet
    obtain ⟨-, hlost, hfree⟩ := hcarry.1 hone
    rw [lostBits, hd] at hlost
    have hodd : significand f = 0xFFFFFF := by have hbound := (significand_bounds hf).2; omega
    rw [hodd, hd] at hfree
    exact ⟨hfree, (significand_eq_iff g 0).1 hupper, (significand_eq_iff f 0x7FFFFF).1 hodd, by omega⟩
  · rintro ⟨hfree, hupper, hlower, hexp⟩
    have hg' : significand g = 0x800000 := (significand_eq_iff g 0).2 hupper
    have hf' : significand f = 0xFFFFFF := (significand_eq_iff f 0x7FFFFF).2 hlower
    have hd : g.exponent.toNat - f.exponent.toNat = 1 := by omega
    have hone : carryInto p f g.exponent.toNat = 1 := by
      refine hcarry.2 ⟨hlt, ?_, ?_⟩
      · rw [lostBits, hf', hd]; decide
      · rw [hf', hd]; exact hfree
    rw [hone, hd, hf', hg']
    norm_num

/-- A difference of signed magnitudes that are not both zero is zero exactly for equal signs and magnitudes. -/
theorem signed_sub_eq_zero_iff (s t : Bit) {m n : Nat} (h : 0 < m ∨ 0 < n) :
    signFactor s * (m : Int) - signFactor t * (n : Int) = 0 ↔ s = t ∧ m = n := by
  rcases bit_cases s with rfl | rfl <;> rcases bit_cases t with rfl | rfl <;>
    simp only [signFactor_zero, signFactor_one]
  · exact ⟨fun hzero => ⟨trivial, by omega⟩, fun ⟨_, heq⟩ => by omega⟩
  · exact ⟨fun hzero => by omega, fun ⟨heq, _⟩ => absurd heq (by decide)⟩
  · exact ⟨fun hzero => by omega, fun ⟨heq, _⟩ => absurd heq (by decide)⟩
  · exact ⟨fun hzero => ⟨trivial, by omega⟩, fun ⟨_, heq⟩ => by omega⟩

/-- The integer difference is that of the signed aligned magnitudes, of which one is a significand and so positive. -/
theorem integerDifference_eq_zero_iff (p : OpenParams) {x y : FloatValue} (hx : AtRest x) (hy : AtRest y) :
    integerDifference p x y = 0 ↔ x.sign = y.sign
      ∧ alignedMagnitude p 1 x (commonExponent x y) = alignedMagnitude p 1 y (commonExponent x y) := by
  refine signed_sub_eq_zero_iff x.sign y.sign (m := alignedMagnitude p 1 x (commonExponent x y))
    (n := alignedMagnitude p 1 y (commonExponent x y)) ?_
  rcases le_total y.exponent.toNat x.exponent.toNat with h | h
  · left
    rw [commonExponent_of_le h, alignedMagnitude_self]
    exact lt_of_lt_of_le (by norm_num) (significand_bounds hx).1
  · right
    rw [commonExponent_comm, commonExponent_of_le h, alignedMagnitude_self]
    exact lt_of_lt_of_le (by norm_num) (significand_bounds hy).1

/-- The aligned magnitudes of unequal tuples of one sign are equal in the family of R54 alone. -/
theorem alignedMagnitude_eq_iff (p : OpenParams) {x y : FloatValue} (hx : AtRest x) (hy : AtRest y)
    (hsign : x.sign = y.sign) (hne : x ≠ y) :
    alignedMagnitude p 1 x (commonExponent x y) = alignedMagnitude p 1 y (commonExponent x y) ↔
      p.carry 0xFFFFFF 1 = 1
        ∧ ((x.mantissa = 0 ∧ y.mantissa = 0x7FFFFF ∧ x.exponent.toNat = y.exponent.toNat + 1)
          ∨ (y.mantissa = 0 ∧ x.mantissa = 0x7FFFFF ∧ y.exponent.toNat = x.exponent.toNat + 1)) := by
  rcases Nat.lt_trichotomy x.exponent.toNat y.exponent.toNat with hlt | heq | hgt
  · rw [commonExponent_comm, commonExponent_of_le hlt.le, alignedMagnitude_self,
      alignedMagnitude_eq_significand_iff p hx hy hlt]
    have hother : ¬ x.exponent.toNat = y.exponent.toNat + 1 := by omega
    simp only [hother, and_false, false_or]
  · have hleft : ¬ x.exponent.toNat = y.exponent.toNat + 1 := by omega
    have hright : ¬ y.exponent.toNat = x.exponent.toNat + 1 := by omega
    simp only [hleft, hright, and_false, or_false, iff_false]
    rw [commonExponent_of_le heq.ge, alignedMagnitude_self, heq, alignedMagnitude_self, significand, significand,
      Nat.add_left_cancel_iff]
    exact fun hmantissa => hne (FloatValue.ext_toNat hsign heq hmantissa)
  · rw [commonExponent_of_le hgt.le, alignedMagnitude_self, eq_comm, alignedMagnitude_eq_significand_iff p hy hx hgt]
    have hother : ¬ y.exponent.toNat = x.exponent.toNat + 1 := by omega
    simp only [hother, and_false, or_false]

/-- The magnitude of a subtraction is zero exactly when the integer difference is. -/
theorem subtractionSignals_mag_eq_zero_iff (p : OpenParams) {x y : FloatValue} (hx : AtRest x) (hy : AtRest y) :
    (subtractionSignals p x y).pipe.mag = 0 ↔ integerDifference p x y = 0 := by
  rw [subtractionSignals_pipe, pipe_mag_eq_zero_iff p 1 hx (atRest_negValue hy), pipeInteger_sub]

/-- An unflagged subtraction of zero magnitude has the pipeline's zero with the open exponent as its result (R54,
R72). -/
theorem fsubT_of_unflagged_zero (p : OpenParams) {x y : FloatValue} (hx : AtRest x) (hy : AtRest y)
    (hmag : (subtractionSignals p x y).pipe.mag = 0) (hflag : (subtractionSignals p x y).cancel = 0) :
    fsubT p x y
      = { sign := 0, exponent := p.zeroMagExp (subtractionSignals p x y).pipe.ec, mantissa := 0 } := by
  rw [subtractionSignals_mag_eq_zero_iff p hx hy, ← pipeInteger_sub] at hmag
  obtain ⟨hrs, -, -, -, -, hne, hfrac⟩ := pipe_zero p 1 hx (atRest_negValue hy) hmag
  rw [fsubT, Internal.result, hflag, subtractionSignals_pipe, finalize_zero, hrs, hne, hfrac]

/-- Settles O28: the magnitude is zero for equal signs and aligned magnitudes (`integerDifference_eq_zero_iff`), which
unequal tuples have in the one family alone (`alignedMagnitude_eq_iff`); in FADD a zero magnitude is the flagged zero
sum (`cancelAdd_pipe`). -/
theorem unflaggedZeroMagnitudeIsOneFamily : Obligations.UnflaggedZeroMagnitudeIsOneFamily := by
  intro p x y hx hy
  refine ⟨?family, fsubT_of_unflagged_zero p hx hy, ?addition⟩
  case family =>
    rw [subtractionSignals_mag_eq_zero_iff p hx hy, integerDifference_eq_zero_iff p hx hy, ← bit_ne_one, Ne,
      subtractionSignals_cancel p hx hy]
    constructor
    · rintro ⟨⟨hsign, hmagnitude⟩, hne⟩
      exact ⟨hsign, (alignedMagnitude_eq_iff p hx hy hsign hne).1 hmagnitude⟩
    · rintro ⟨hsign, hfamily⟩
      have hne : x ≠ y := by
        rintro rfl
        rcases hfamily.2 with ⟨-, -, hexp⟩ | ⟨-, -, hexp⟩ <;> omega
      exact ⟨⟨hsign, (alignedMagnitude_eq_iff p hx hy hsign hne).2 hfamily⟩, hne⟩
  case addition =>
    rw [additionSignals_pipe, pipe_mag_eq_zero_iff p 0 hx hy, pipeInteger_add]
    exact (cancelAdd_pipe p hx hy).symm

end Sys2Proof.Machine
end

section
/-! The numbers FADD and FSUB denote (44_addition.md, R75): exactness when no 1 bit is lost. -/

namespace Sys2Proof.Machine

/-- The result ports hold the fields of the result. -/
theorem outputsOf_fields (R : FloatValue) (q : Bit) :
    ({ sign := (outputsOf R q).rSign, exponent := (outputsOf R q).rExp, mantissa := (outputsOf R q).rMan } : FloatValue)
      = R := rfl

/-- The negated tuple denotes the negated number (R6). -/
theorem value_negValue (f : FloatValue) : value (negValue f) = -value f := by
  have hsig : significand (negValue f) = significand f := rfl
  have hexp : (negValue f).exponent = f.exponent := rfl
  have hsign : signFactor (negValue f).sign = -signFactor f.sign := signFactor_signInvert f.sign
  rw [value_eq, value_eq, hsig, hexp, hsign]
  push_cast
  ring

/-- The exact zero has no normal exponent. -/
theorem not_normalExponent_zero : ¬ NormalExponent FloatValue.zero.exponent := by decide

/-- An operand that loses only zeros is an integer number of units at the common exponent (R51). -/
theorem value_of_lossless {f : FloatValue} {ec : Word} (hle : f.exponent.toNat ≤ ec.toNat)
    (hlost : lostBits f ec.toNat = 0) : value f = alignedInteger f ec.toNat 0 * ulp ec := by
  rw [value_aligned f hle, hlost, Nat.cast_zero, mul_zero, zero_mul, add_zero]

/-- A normalised tuple that lost only a zero denotes its integer in units of the common exponent (R56). -/
theorem value_normalized_of_lossless {v : Int} (hv : v ≠ 0) {ec : Word} (hec : ec.toNat ≤ 255)
    (hlog : v.natAbs.log2 ≤ 24) (hlost : v.natAbs.log2 = 24 → v.natAbs % 2 = 0)
    (hnormal : NormalExponent (normalizedTuple v ec.toNat).exponent) :
    value (normalizedTuple v ec.toNat) = v * ulp ec := by
  have hdropped : (if v.natAbs.log2 = 24 then v.natAbs % 2 else 0) = 0 := by
    split
    next h24 => exact hlost h24
    next => rfl
  rw [value_normalized hv hec hlog hnormal, hdropped, Nat.sub_zero, signFactor_abs]

/-- Where only zeros are shifted out the pipeline sums the truncated significands, with or without carry compensation
(R52 item 5). -/
theorem pipeInteger_of_lossless (p : OpenParams) (comp : Bit) {x y : FloatValue} (hx : AtRest x) (hy : AtRest y)
    (hlx : lostBits x (commonExponent x y) = 0) (hly : lostBits y (commonExponent x y) = 0) :
    pipeInteger p comp x y = integerSum x y := by
  have hcarry : ∀ f, AtRest f → lostBits f (commonExponent x y) = 0 → pipeCarry p comp f (commonExponent x y) = 0 := by
    intro f hf hlost
    rw [pipeCarry, carryInto_of_lossless p f hf _ hlost, ite_self]
  rw [pipeInteger, hcarry x hx hlx, hcarry y hy hly, integerSum]

/-- When ALIGN and RENORM lose only zeros, the integer sum denotes the sum of its operands (R75). Its premises speak of
the wires of any pipeline run on the operands. -/
theorem value_integerAdd_of_lossless (p : OpenParams) (comp : Bit) {x y : FloatValue} (hx : AtRest x) (hy : AtRest y)
    (hlx : lostBits x (pipe p x y comp).ec.toNat = 0) (hly : lostBits y (pipe p x y comp).ec.toNat = 0)
    (hrenorm : (pipe p x y comp).delta = some 1 → (pipe p x y comp).mag.toNat % 2 = 0)
    (hnormal : NormalExponent (integerAdd x y).exponent) : value (integerAdd x y) = value x + value y := by
  obtain ⟨-, -, hec, -, -, -⟩ := pipe_aligned p comp hx hy
  obtain ⟨-, hmag, -⟩ := pipe_signMag p comp hx hy
  have hxle : x.exponent.toNat ≤ (pipe p x y comp).ec.toNat := hec ▸ le_max_left _ _
  have hyle : y.exponent.toNat ≤ (pipe p x y comp).ec.toNat := hec ▸ le_max_right _ _
  have hvalues : value x + value y = integerSum x y * ulp (pipe p x y comp).ec := by
    rw [value_of_lossless hxle hlx, value_of_lossless hyle hly, integerSum, ← hec]
    push_cast
    ring
  rw [hec] at hlx hly
  have hint := pipeInteger_of_lossless p comp hx hy hlx hly
  rw [hint] at hmag
  by_cases hzero : integerSum x y = 0
  · rw [integerAdd, if_pos hzero] at hnormal
    exact absurd hnormal not_normalExponent_zero
  obtain ⟨hlog, -, hdelta, -⟩ := pipe_nonzero p comp hx hy (hint ▸ hzero)
  rw [hint] at hlog hdelta
  have hlost : (integerSum x y).natAbs.log2 = 24 → (integerSum x y).natAbs % 2 = 0 := by
    intro h24
    rw [h24] at hdelta
    exact hmag ▸ hrenorm hdelta
  rw [integerAdd, if_neg hzero, ← hec] at hnormal ⊢
  rw [value_normalized_of_lossless hzero (hec ▸ commonExponent_le hx hy) hlog hlost hnormal, hvalues]

/-- Settles O21: FADD drives the integer sum, which denotes the sum of its operands when only zeros are lost
(`value_integerAdd_of_lossless`). -/
theorem faddIsExactWhenNoBitIsLost : Obligations.FaddIsExactWhenNoBitIsLost := by
  intro a b s _
  refine ⟨_, _, exec_fadd a b s, evaluate_fadd_internal s a b, ?_⟩
  rw [evaluate_fadd_outputs, outputsOf_fields, additionSignals_pipe]
  exact value_integerAdd_of_lossless _ 0 (atRest_unpack a) (atRest_unpack b)

/-- Settles O29: with only zeros lost FSUB drives the integer sum with the negation (`integerSub_of_lossless`), which
denotes the sum of its operands (`value_integerAdd_of_lossless`), and the negation denotes the negated number
(`value_negValue`). -/
theorem fsubIsExactWhenNoBitIsLost : Obligations.FsubIsExactWhenNoBitIsLost := by
  intro a b s _
  have ha := atRest_unpack a
  have hb := atRest_unpack b
  refine ⟨_, _, exec_fsub a b s, evaluate_fsub_internal s a b, fun hla hlb hrenorm hnormal => ?_⟩
  rw [subtractionSignals_pipe] at hla hlb hrenorm
  obtain ⟨-, -, hec, -, -, -⟩ := pipe_aligned Config.params 1 ha (atRest_negValue hb)
  have hdifference := integerSub_of_lossless Config.params ha hb (hec ▸ hla) (hec ▸ hlb)
  rw [evaluate_fsub_outputs, hdifference] at hnormal ⊢
  rw [outputsOf_fields, sub_eq_add_neg, ← value_negValue]
  exact value_integerAdd_of_lossless _ 1 ha (atRest_negValue hb) hla hlb hrenorm hnormal

end Sys2Proof.Machine
end

section
/-! The error of FADD (44_addition.md, R75). -/

namespace Sys2Proof.Machine

/-- A sign changes no absolute value. -/
theorem abs_signFactor_mul (s : Bit) (q : ℚ) : |(signFactor s : ℚ) * q| = |q| := by
  rcases bit_cases s with rfl | rfl
  · rw [signFactor_zero, Int.cast_one, one_mul]
  · rw [signFactor_one, Int.cast_neg, Int.cast_one, neg_one_mul, abs_neg]

theorem signFactor_of_ne {s t : Bit} (h : s ≠ t) : signFactor t = -signFactor s := by
  revert s t; decide

/-- The value an operand loses in alignment to exponent `ec`, without its sign (R51). -/
def lostValue (f : FloatValue) (ec : Word) : ℚ := lostBits f ec.toNat * ulp f.exponent

theorem lostValue_nonneg (f : FloatValue) (ec : Word) : 0 ≤ lostValue f ec :=
  mul_nonneg (Nat.cast_nonneg _) (ulp_pos _).le

/-- Alignment loses less than one unit of the common exponent (R51). -/
theorem lostValue_lt_ulp {f : FloatValue} {ec : Word} (h : f.exponent.toNat ≤ ec.toNat) : lostValue f ec < ulp ec := by
  have hlt : lostBits f ec.toNat < 2 ^ (ec.toNat - f.exponent.toNat) := Nat.mod_lt _ (by positivity)
  rw [ulp_shift h]
  exact mul_lt_mul_of_pos_right (by exact_mod_cast hlt) (ulp_pos _)

/-- The operand with the common exponent loses nothing (R50). -/
theorem lostValue_self {f : FloatValue} {ec : Word} (h : f.exponent.toNat = ec.toNat) : lostValue f ec = 0 := by
  rw [lostValue, lostBits, h, Nat.sub_self, pow_zero, Nat.mod_one, Nat.cast_zero, zero_mul]

/-- The truncated significand at exponent `ec` (R51). -/
def truncated (f : FloatValue) (ec : Word) : Nat := significand f / 2 ^ (ec.toNat - f.exponent.toNat)

theorem alignedInteger_eq_truncated (f : FloatValue) (ec : Word) :
    alignedInteger f ec.toNat 0 = signFactor f.sign * (truncated f ec : Int) := rfl

/-- A number is its sign times what alignment keeps and what it loses (R51). -/
theorem value_eq_truncated_add_lost {f : FloatValue} {ec : Word} (h : f.exponent.toNat ≤ ec.toNat) :
    value f = (signFactor f.sign : ℚ) * (truncated f ec * ulp ec + lostValue f ec) := by
  rw [value_aligned f h, alignedInteger_eq_truncated, lostValue]
  push_cast
  ring

/-- An operand below the common exponent keeps less than any significand (R50 (d)). -/
theorem truncated_of_lt {f : FloatValue} {ec : Word} (hf : AtRest f) (h : f.exponent.toNat < ec.toNat) :
    truncated f ec < 0x800000 := by
  have hpow : 2 ^ 1 ≤ 2 ^ (ec.toNat - f.exponent.toNat) := Nat.pow_le_pow_right (by norm_num) (Nat.sub_pos_of_lt h)
  have hhalf : truncated f ec ≤ significand f / 2 ^ 1 := Nat.div_le_div_left hpow (by norm_num)
  have hbound := (significand_bounds hf).2
  omega

theorem truncated_self {f : FloatValue} {ec : Word} (h : f.exponent.toNat = ec.toNat) :
    truncated f ec = significand f := by
  rw [truncated, h, Nat.sub_self, pow_zero, Nat.div_one]

theorem truncated_le {f : FloatValue} (ec : Word) (hf : AtRest f) : truncated f ec ≤ 0xFFFFFF :=
  (Nat.div_le_self _ _).trans (significand_bounds hf).2

/-- A normalised tuple's magnitude is its integer's in units of the common exponent, less at most one, and less nothing
below 2^24 (R56). -/
theorem abs_value_normalized {v : Int} (hv : v ≠ 0) {ec : Word} (hec : ec.toNat ≤ 255) (hlog : v.natAbs.log2 ≤ 24)
    (hnormal : NormalExponent (normalizedTuple v ec.toNat).exponent) :
    ∃ dropped : ℕ, dropped ≤ 1 ∧ (v.natAbs < 2 ^ 24 → dropped = 0)
      ∧ |value (normalizedTuple v ec.toNat)| = ((v.natAbs : ℚ) - dropped) * ulp ec := by
  refine ⟨if v.natAbs.log2 = 24 then v.natAbs % 2 else 0, ?one, fun hsmall => ?none, ?value⟩
  case one => split <;> omega
  case none => exact if_neg ((Nat.log2_lt (by omega)).2 hsmall).ne
  case value =>
    rw [value_normalized hv hec hlog hnormal, mul_assoc, abs_signFactor_mul, abs_of_nonneg
      (mul_nonneg (Nat.cast_nonneg _) (ulp_pos ec).le), Nat.cast_sub]
    split <;> omega

/-- With equal signs the aligned significands add (R75). -/
theorem integerSum_natAbs_of_same_sign {x y : FloatValue} {ec : Word} (hec : ec.toNat = commonExponent x y)
    (hsign : x.sign = y.sign) : (integerSum x y).natAbs = truncated x ec + truncated y ec := by
  have hsum : integerSum x y = signFactor y.sign * (truncated x ec + truncated y ec : Nat) := by
    rw [integerSum, ← hec, alignedInteger_eq_truncated, alignedInteger_eq_truncated, hsign]
    push_cast
    ring
  rw [hsum]
  rcases bit_cases y.sign with hs | hs <;> rw [hs]
  · rw [signFactor_zero, one_mul, Int.natAbs_natCast]
  · rw [signFactor_one, neg_one_mul, Int.natAbs_neg, Int.natAbs_natCast]

/-- With equal signs the numbers' magnitudes add, kept parts and lost ones (R75). -/
theorem abs_value_add_of_same_sign {x y : FloatValue} {ec : Word} (hx : x.exponent.toNat ≤ ec.toNat)
    (hy : y.exponent.toNat ≤ ec.toNat) (hsign : x.sign = y.sign) : |value x + value y| =
      ((truncated x ec : ℚ) + truncated y ec) * ulp ec + (lostValue x ec + lostValue y ec) := by
  have hu := ulp_pos ec
  have hlx := lostValue_nonneg x ec
  have hly := lostValue_nonneg y ec
  rw [value_eq_truncated_add_lost hx, value_eq_truncated_add_lost hy, hsign, ← mul_add, abs_signFactor_mul,
    abs_of_nonneg (by positivity)]
  ring

/-- The two operands together lose less than one unit, as one of them does not move (R50, R51). -/
theorem lostValue_add_lt_ulp {x y : FloatValue} {ec : Word} (hec : ec.toNat = commonExponent x y) :
    lostValue x ec + lostValue y ec < ulp ec := by
  rcases le_total y.exponent.toNat x.exponent.toNat with hle | hle
  · have hx : x.exponent.toNat = ec.toNat := by rw [hec, commonExponent_of_le hle]
    rw [lostValue_self hx, zero_add]
    exact lostValue_lt_ulp (hx ▸ hle)
  · have hy : y.exponent.toNat = ec.toNat := by rw [hec, commonExponent_comm, commonExponent_of_le hle]
    rw [lostValue_self hy, add_zero]
    exact lostValue_lt_ulp (hy ▸ hle)

/-- With equal signs the integer sum falls short by what alignment and the last right shift lose: less than two units
(R75). -/
theorem integerAdd_error_of_same_sign {x y : FloatValue} (hx : AtRest x) (hy : AtRest y) {ec : Word}
    (hec : ec.toNat = commonExponent x y) (hsign : x.sign = y.sign)
    (hnormal : NormalExponent (integerAdd x y).exponent) : |value (integerAdd x y)| ≤ |value x + value y|
      ∧ |value x + value y| - |value (integerAdd x y)| < 2 * ulp ec := by
  have hnatAbs := integerSum_natAbs_of_same_sign hec hsign
  have hxle : x.exponent.toNat ≤ ec.toNat := hec ▸ le_max_left _ _
  have hyle : y.exponent.toNat ≤ ec.toNat := hec ▸ le_max_right _ _
  have hbx := truncated_le ec hx
  have hby := truncated_le ec hy
  by_cases hzero : integerSum x y = 0
  · rw [integerAdd, if_pos hzero] at hnormal
    exact absurd hnormal not_normalExponent_zero
  have hlog : (integerSum x y).natAbs.log2 < 25 := (Nat.log2_lt (by omega)).2 (by omega)
  rw [integerAdd, if_neg hzero, ← hec] at hnormal ⊢
  obtain ⟨dropped, hone, -, hresult⟩ :=
    abs_value_normalized hzero (hec ▸ commonExponent_le hx hy) (Nat.le_of_lt_succ hlog) hnormal
  have hu := ulp_pos ec
  have hdropped : (dropped : ℚ) * ulp ec ≤ ulp ec := mul_le_of_le_one_left hu.le (by exact_mod_cast hone)
  have hkept : 0 ≤ (dropped : ℚ) * ulp ec := by positivity
  have hlost := lostValue_add_lt_ulp hec
  have hlx := lostValue_nonneg x ec
  have hly := lostValue_nonneg y ec
  rw [hresult, abs_value_add_of_same_sign hxle hyle hsign, hnatAbs]
  push_cast
  constructor <;> linarith

/-- With different signs the aligned significands subtract (R75). -/
theorem integerSum_of_different_signs {x y : FloatValue} {ec : Word} (hec : ec.toNat = commonExponent x y)
    (hsign : x.sign ≠ y.sign) :
    integerSum x y = signFactor x.sign * ((truncated x ec : Int) - truncated y ec) := by
  rw [integerSum, ← hec, alignedInteger_eq_truncated, alignedInteger_eq_truncated, signFactor_of_ne hsign]
  ring

/-- With different signs, and the first operand not below the second, the magnitude of the sum is that of the integer
sum less what the second operand loses (R75). -/
theorem abs_value_add_of_different_signs {x y : FloatValue} (hx : AtRest x) (hy : AtRest y) {ec : Word}
    (hxe : x.exponent.toNat = ec.toNat) (hye : y.exponent.toNat ≤ ec.toNat) (hsign : x.sign ≠ y.sign) :
    |value x + value y| = |(truncated x ec : ℚ) - truncated y ec| * ulp ec - lostValue y ec := by
  have hu := ulp_pos ec
  have hsum : |value x + value y| = |((truncated x ec : ℚ) - truncated y ec) * ulp ec - lostValue y ec| := by
    rw [value_eq_truncated_add_lost hxe.le, value_eq_truncated_add_lost hye, lostValue_self hxe, signFactor_of_ne hsign,
      ← abs_signFactor_mul x.sign (_ - _)]
    push_cast
    ring_nf
  rw [hsum]
  rcases Nat.lt_or_eq_of_le hye with hlt | heq
  · have hsmall := truncated_of_lt hy hlt
    have hlarge : 0x800000 ≤ truncated x ec := truncated_self hxe ▸ (significand_bounds hx).1
    have hone : (1 : ℚ) ≤ (truncated x ec : ℚ) - truncated y ec := by
      have hcast : ((truncated y ec + 1 : ℕ) : ℚ) ≤ (truncated x ec : ℚ) := by exact_mod_cast (by omega)
      push_cast at hcast
      linarith
    have hunit : ulp ec ≤ ((truncated x ec : ℚ) - truncated y ec) * ulp ec := le_mul_of_one_le_left hu.le hone
    have hlost := lostValue_lt_ulp hye
    rw [abs_of_nonneg (by linarith), abs_of_nonneg (by linarith)]
  · rw [lostValue_self heq, sub_zero, sub_zero, abs_mul, abs_of_pos hu]

/-- With different signs, and the first operand not below the second, the integer sum exceeds the true difference by
what the second operand loses: less than one unit (R75). -/
theorem integerAdd_error_of_different_signs {x y : FloatValue} (hx : AtRest x) (hy : AtRest y) {ec : Word}
    (hec : ec.toNat = commonExponent x y) (hle : y.exponent.toNat ≤ x.exponent.toNat) (hsign : x.sign ≠ y.sign)
    (hnormal : NormalExponent (integerAdd x y).exponent) : |value x + value y| ≤ |value (integerAdd x y)|
      ∧ |value (integerAdd x y)| - |value x + value y| < ulp ec := by
  have hxe : x.exponent.toNat = ec.toNat := by rw [hec, commonExponent_of_le hle]
  have hye : y.exponent.toNat ≤ ec.toNat := hxe ▸ hle
  have hsum := integerSum_of_different_signs hec hsign
  have hbx := truncated_le ec hx
  have hby := truncated_le ec hy
  by_cases hzero : integerSum x y = 0
  · rw [integerAdd, if_pos hzero] at hnormal
    exact absurd hnormal not_normalExponent_zero
  have habs : ((integerSum x y).natAbs : ℚ) = |(truncated x ec : ℚ) - truncated y ec| := by
    rw [Nat.cast_natAbs, Int.cast_abs, hsum, Int.cast_mul, abs_signFactor_mul]
    push_cast
    rfl
  have hsmall : (integerSum x y).natAbs < 2 ^ 24 := by
    rw [hsum]
    rcases bit_cases x.sign with hs | hs <;> rw [hs] <;> simp only [signFactor_zero, signFactor_one] <;> omega
  have hlog : (integerSum x y).natAbs.log2 < 24 := (Nat.log2_lt (by omega)).2 hsmall
  rw [integerAdd, if_neg hzero, ← hec] at hnormal ⊢
  obtain ⟨dropped, -, hnone, hresult⟩ :=
    abs_value_normalized hzero (hec ▸ commonExponent_le hx hy) hlog.le hnormal
  rw [hresult, hnone hsmall, Nat.cast_zero, sub_zero, habs, abs_value_add_of_different_signs hx hy hxe hye hsign]
  have hlost := lostValue_lt_ulp hye
  have hly := lostValue_nonneg y ec
  constructor <;> linarith

/-- Settles O22: FADD drives the integer sum; its error is bounded for equal signs (`integerAdd_error_of_same_sign`) and
for different ones (`integerAdd_error_of_different_signs`), there in whichever order puts the larger exponent first. -/
theorem faddErrorIsBounded : Obligations.FaddErrorIsBounded := by
  intro a b s _
  have ha := atRest_unpack a
  have hb := atRest_unpack b
  obtain ⟨-, -, hec, -, -, -⟩ := pipe_aligned Config.params 0 ha hb
  refine ⟨_, _, exec_fadd a b s, evaluate_fadd_internal s a b, ?_⟩
  rw [evaluate_fadd_outputs, outputsOf_fields, additionSignals_pipe]
  refine fun hnormal => ⟨fun hsame => ?same, fun hdifferent => ?different⟩
  case same => exact integerAdd_error_of_same_sign ha hb hec hsame hnormal
  case different =>
    rcases le_total (unpack b).exponent.toNat (unpack a).exponent.toNat with hle | hle
    · exact integerAdd_error_of_different_signs ha hb hec hle hdifferent hnormal
    · rw [commonExponent_comm] at hec
      have hnormal' : NormalExponent (integerAdd (unpack b) (unpack a)).exponent := by rwa [integerAdd_comm]
      rw [add_comm (value (unpack a)), integerAdd_comm (unpack a)]
      exact integerAdd_error_of_different_signs hb ha hec hle hdifferent.symm hnormal'

end Sys2Proof.Machine
end
